-- ==== Sys2Proof/Word.lean ====
section
/-! DEFINITION. The widths of the block's values (00_scope.md R8, R11): every value is an unsigned
integer of a stated width, bit 0 the least significant. -/

namespace Sys2Proof

/-- One bit: a line level, a flag or a parity bit. -/
abbrev Bit := BitVec 1

/-- The command word, `CMD_W` = 96 bits (R8, R70). -/
abbrev CmdWord := BitVec 96

/-- The packed credential value, `DATA_W` = 64 bits (R8). -/
abbrev Credential := BitVec 64

/-- The frame register, `FRAME_W` = 40 bits (R8). -/
abbrev FrameBits := BitVec 40

/-- The trace record, 128 bits (R35). -/
abbrev TraceWord := BitVec 128

/-- The idle level of a line is the value 1 (R14). -/
abbrev HIGH : Bit := 1#1

/-- A pulse is the value 0 (R14). -/
abbrev LOW : Bit := 0#1

end Sys2Proof
end

