-- ==== Sys2Proof/Config.lean ====
section
/-! DEFINITION. What an implementation fixes (00_scope.md R8, R10), the input ports (10_state.md R23) and
the free values. What is computed from the parameters (cycle counts, well-formedness) is in Machine/Timing.lean. -/

namespace Sys2Proof

/-- The parameters of R8 a model takes as arguments. `PW_US` and `IPI_US` are no fields: R10 forbids to
treat them as free. -/
structure Config where
  /-- `F_CLK_HZ`, the frequency of `clk`. -/
  fClkHz : Nat
  /-- `PIN_D0`, the physical pin line D0 is wired to (R42). -/
  pinD0 : Nat
  /-- `PIN_D1`, the physical pin line D1 is wired to (R42). -/
  pinD1 : Nat
  /-- `JITTER_NS`, how far a pin edge may be from its clock edge; no step reads it (R103). -/
  jitterNs : Nat
  /-- `LINE_DRIVE`, a number that names the electrical form of D0 and D1; no step reads it, levels being logical
  (R14). DESIGN CHOICE: the spec lists no forms (log 23). -/
  lineDrive : Nat
  deriving DecidableEq, Repr

/-- The clock is R8's default of 1 MHz. DESIGN CHOICE: pins 0 and 1, jitter 0, electrical form 0 (log 2). -/
def Config.standard : Config := { fClkHz := 1000000, pinD0 := 0, pinD1 := 1, jitterNs := 0, lineDrive := 0 }

/-- The levels on the input ports sampled at one edge of `clk` (R23). -/
structure Inputs where
  rst : Bit
  debugEn : Bit
  cmdValid : Bit
  cmd : CmdWord
  deriving DecidableEq, Repr, Inhabited

/-- FREE VALUE (log 4): what the host drives at edge `k` once the list in `State.host` is used up. -/
opaque Config.hostInputs (k : Nat) : Inputs

/-- FREE VALUE (log 10): `frame[i]` for an index past the register, at edge `k`. -/
opaque Config.frameBeyond (k : Nat) : Bit

/-- FREE VALUE (log 11): the unspecified content of register number `k`, of `w` bits, before the first
reset edge (R43). -/
opaque Config.powerOn (w k : Nat) : BitVec w

/-- FREE VALUE (log 11): the unspecified number in the phase counter before the first reset edge. -/
opaque Config.powerOnCnt : Nat

end Sys2Proof
end

