-- ==== Sys2Proof/Machine/Timing.lean ====
section
/-! DEFINITION. The cycle counts and widths a configuration gives, and when a configuration is well formed
(00_scope.md R8, R9). -/

namespace Sys2Proof

/-- `PW_US`, the pulse width in microseconds: the source's constant (R8, R10). -/
def pwUs : Nat := 50

/-- `IPI_US`, the inter-pulse interval in microseconds: the source's constant (R8, R10). -/
def ipiUs : Nat := 1000

/-- `PW_CYCLES` (R8). -/
def Config.pwCycles (c : Config) : Nat := pwUs * c.fClkHz / 1000000

/-- `IPI_CYCLES` (R8). -/
def Config.ipiCycles (c : Config) : Nat := ipiUs * c.fClkHz / 1000000

/-- `P = PW_CYCLES + IPI_CYCLES`, the cycles of one bit (R95). -/
def Config.period (c : Config) : Nat := c.pwCycles + c.ipiCycles

/-- The least `w` with `2^w >= m`. -/
def leastWidth (m : Nat) : Nat := if m ≤ 1 then 0 else (m - 1).log2 + 1

/-- `CNT_W`, the width of the phase counter (R8). -/
def Config.cntW (c : Config) : Nat := leastWidth (max c.pwCycles c.ipiCycles)

/-- Both cycle counts are whole and at least 1 (R9). -/
def Config.wholeCycles (c : Config) : Bool :=
  pwUs * c.fClkHz % 1000000 == 0 && ipiUs * c.fClkHz % 1000000 == 0 && decide (1 ≤ c.pwCycles) && decide (1 ≤ c.ipiCycles)

/-- The pulse lies in the protocol tolerance, "pulse width 20–100 µs and spacing 200 µs–20 ms" (R9), times
`F_CLK_HZ` to stay whole. DESIGN CHOICE: "spacing" is taken as the end of one pulse to the start of the next (log 21). -/
def Config.inTolerance (c : Config) : Bool :=
  decide (20 * c.fClkHz ≤ c.pwCycles * 1000000) && decide (c.pwCycles * 1000000 ≤ 100 * c.fClkHz) &&
  decide (200 * c.fClkHz ≤ c.ipiCycles * 1000000) && decide (c.ipiCycles * 1000000 ≤ 20000 * c.fClkHz)

/-- A well-formed configuration: R9 for the clock, and two distinct pins (R42; U1 of
93_implementation_defined.md). A step refuses any other. -/
def Config.wf (c : Config) : Bool := c.wholeCycles && c.inTolerance && c.pinD0 != c.pinD1

end Sys2Proof
end

