-- ==== Sys2Proof/Machine/State.lean ====
section
/-! DEFINITION. The state: the registers of 10_state.md R25, the configuration, and the host's coming actions;
the reasons a step can stop; the state after reset (70_reset_and_hazards.md R180) and before it (R43). -/

namespace Sys2Proof.Machine

/-- The FSM state `st` with its 2-bit codes (R26); `code3` is the code no rule writes (R27). -/
inductive Fsm where
  | idle
  | pulse
  | gap
  | code3
  deriving DecidableEq, Repr

/-- RESULT codes 00, 01, 10, 11 (R29). -/
inductive ResultCode where
  | noResult
  | ok
  | errFormat
  | errOp
  deriving DecidableEq, Repr

/-- What the host does at the coming edges: raw port levels for one edge, or a directive of R80. -/
inductive HostAct where
  /-- Drive these levels at one edge. -/
  | drive (i : Inputs)
  /-- `RESET dbg`: `rst = 1` for one edge with `debug_en = dbg`. -/
  | reset (dbg : Bit)
  /-- A command line or `CMD word`: `cmd_valid = 1` with the word until the accepting edge, then lowered. -/
  | command (word : CmdWord)
  /-- `WAIT_DONE`: wait for the cycle in which `done = 1`. -/
  | waitDone
  /-- `DELAY n`: `cmd_valid = 0` for `n` edges. -/
  | delay (n : Nat)
  deriving DecidableEq, Repr

/-- Everything the spec gives the block, and what the model needs to run it. -/
structure State where
  /-- FSM state (R26). -/
  st : Fsm
  /-- The frame being sent, first-sent bit at index `len - 1` (R25). -/
  frame : FrameBits
  /-- Number of bits in `frame` (R25). -/
  len : BitVec 6
  /-- Index in `frame` of the bit on the wire (R21). -/
  idx : BitVec 6
  /-- Cycles already spent in the phase: a register of `CNT_W` bits (R25, log 7). -/
  cnt : Nat
  /-- Level driven on line D0. -/
  d0 : Bit
  /-- Level driven on line D1. -/
  d1 : Bit
  /-- Lines configured as outputs (R44). -/
  oe : Bit
  /-- Diagnostic flag (R34). -/
  dbg : Bit
  /-- Result of the last finished command (R29). -/
  res : ResultCode
  /-- Length of the last accepted frame (R33). -/
  lastLen : BitVec 6
  /-- Completion strobe (R32). -/
  done : Bit
  /-- Trace record valid (R169). -/
  trcV : Bit
  /-- Trace record (R35). -/
  trc : TraceWord
  /-- OP of the command in flight (R36). -/
  hOp : BitVec 4
  /-- Format of the command in flight (R36). -/
  hBits : BitVec 8
  /-- Packed data of the command in flight (R36). -/
  hData : Credential
  /-- 1 when the frame in flight has parity bits (R36). -/
  hPv : Bit
  /-- Even-parity bit of the frame in flight (R36). -/
  hEven : Bit
  /-- Odd-parity bit of the frame in flight (R36). -/
  hOdd : Bit
  /-- MODEL'S OWN: the configuration; no step writes it (log 1). -/
  cfg : Config
  /-- MODEL'S OWN: what the host does at the coming edges, earliest first (log 4). -/
  host : List HostAct
  /-- MODEL'S OWN: whether a reset edge has happened; before one no command can be accepted (R184, log 22). -/
  resetSeen : Bool
  /-- MODEL'S OWN: edges counted, to index the free values (log 16). -/
  edge : Nat
  deriving DecidableEq, Repr

/-- The machine has no fault: no trap mechanism (R160, R166) and an infallible line drive (R57) (log 18). -/
inductive Fault where
  deriving DecidableEq, Repr

/-- Why a step has no meaning. -/
inductive Refusal where
  /-- Raised by an arm of `exec` for a command without a meaning: none is left. Safe. -/
  | notModelled (mnemonic : String)
  /-- Raised by `step` when the configuration is not well formed: R9, "A model refuses a configuration that
  breaks this rule"; U1 refuses one pin for both lines. Safe. -/
  | configNotWellFormed
  deriving DecidableEq, Repr

/-- The registers a reset edge leaves (R180, R25), beside the model's own fields. -/
def State.afterReset (debugEn : Bit) (cfg : Config) (host : List HostAct) (edge : Nat) : State :=
  { st := .idle, frame := 0, len := 0, idx := 0, cnt := 0
    d0 := HIGH, d1 := HIGH, oe := 1
    dbg := debugEn
    res := .noResult, lastLen := 0, done := 0
    trcV := 0, trc := 0
    hOp := 0, hBits := 0, hData := 0, hPv := 0, hEven := 0, hOdd := 0
    cfg := cfg, host := host, resetSeen := true, edge := edge }

/-- The block right after a reset edge. DESIGN CHOICE: that edge sampled `debug_en = 0` (log 3), the
configuration is the standard one (log 2), and nothing is said yet of the host (log 4). -/
def State.reset : State := State.afterReset 0 Config.standard [] 0

/-- The FSM state of a 2-bit code (R26, R27). -/
def Fsm.ofCode (c : BitVec 2) : Fsm :=
  if c = 0 then .idle else if c = 1 then .pulse else if c = 2 then .gap else .code3

/-- The RESULT of a 2-bit code (R29). -/
def ResultCode.ofCode (c : BitVec 2) : ResultCode :=
  if c = 0 then .noResult else if c = 1 then .ok else if c = 2 then .errFormat else .errOp

/-- The block before its first reset edge: every register an unspecified value (R43, U6), each a free draw
(log 11). No command is accepted from it before a reset edge (R184, log 22). DESIGN CHOICE:
the registers are drawn once, and further edges step them (log 24). -/
def State.powerOn (cfg : Config) (host : List HostAct) : State :=
  { st := Fsm.ofCode (Config.powerOn 2 0), frame := Config.powerOn 40 1, len := Config.powerOn 6 2
    idx := Config.powerOn 6 3, cnt := Config.powerOnCnt % 2 ^ cfg.cntW
    d0 := Config.powerOn 1 5, d1 := Config.powerOn 1 6, oe := Config.powerOn 1 7
    dbg := Config.powerOn 1 8
    res := ResultCode.ofCode (Config.powerOn 2 9), lastLen := Config.powerOn 6 10, done := Config.powerOn 1 11
    trcV := Config.powerOn 1 12, trc := Config.powerOn 128 13
    hOp := Config.powerOn 4 14, hBits := Config.powerOn 8 15, hData := Config.powerOn 64 16
    hPv := Config.powerOn 1 17, hEven := Config.powerOn 1 18, hOdd := Config.powerOn 1 19
    cfg := cfg, host := host, resetSeen := false, edge := 0 }

end Sys2Proof.Machine
end

