-- ==== Sys2Proof/Syntax.lean ====
section
/-! DEFINITION. The commands of WE-CMD v1 as syntax: one constructor of `Instr` for each row of
spec/opcode_table.json (30_encoding.md R70, R71), the formats (00_scope.md R3) and the decoder's verdict (R76). -/

namespace Sys2Proof

/-- Command-word bits [91:64]: BITS, WFC and RSV (R70). Only SEND reads BITS; nothing reads WFC or RSV. -/
structure Header where
  bits : BitVec 8
  wfc : Bit
  rsv : BitVec 19
  deriving DecidableEq, Repr

/-- The host commands. Bits that a command ignores (R77) are kept as arguments, so that no bit of the word is
lost between decoding and encoding; no meaning reads them (log 15). -/
inductive Instr where
  /-- SEND: `data = {opa, opb}`, format `h.bits` (R122). -/
  | send (h : Header) (opa opb : BitVec 32)
  /-- SEND26: facility code OPA[7:0], card number OPB[15:0] (R140). -/
  | send26 (h : Header) (opaHi : BitVec 24) (fc : BitVec 8) (opbHi : BitVec 16) (cn : BitVec 16)
  /-- SEND34: facility code OPA[15:0], card number OPB[15:0] (R141). -/
  | send34 (h : Header) (opaHi : BitVec 16) (fc : BitVec 16) (opbHi : BitVec 16) (cn : BitVec 16)
  /-- SENDEM4100: version OPA[7:0], card ID OPB (R142). -/
  | sendEm4100 (h : Header) (opaHi : BitVec 24) (version : BitVec 8) (cardId : BitVec 32)
  /-- The reserved OP 0x0 (R162). -/
  | reserved0 (h : Header) (opa opb : BitVec 32)
  /-- The reserved OP 0x5 (R162). -/
  | reserved5 (h : Header) (opa opb : BitVec 32)
  /-- The reserved OPs 0x6 and 0x7; `low` is OP[0] (R162). -/
  | reserved6to7 (low : BitVec 1) (h : Header) (opa opb : BitVec 32)
  /-- The reserved OPs 0x8 to 0xF; `low` is OP[2:0] (R162). -/
  | reserved8toF (low : BitVec 3) (h : Header) (opa opb : BitVec 32)
  deriving DecidableEq, Repr

/-- The format selector: exactly three formats (R3). -/
inductive Format where
  | f26
  | f34
  | f40
  deriving DecidableEq, Repr

/-- Why a command is rejected (R161, R162). -/
inductive RejectCode where
  | errFormat
  | errOp
  deriving DecidableEq, Repr

/-- The verdict of R76's `Decode`. -/
inductive Verdict where
  | reject (code : RejectCode)
  | accept (op : BitVec 4) (fmt : Format) (data : Credential)
  deriving DecidableEq, Repr

end Sys2Proof
end

