-- ==== Sys2Proof/Machine/Flags.lean ====
section
/-! DEFINITION. Bit counts (00_scope.md R11), the parity calculator (41_send.md R110 to R114), the RESULT codes
and the status word (10_state.md R28, R29), and the trace record's layout (R35). -/

namespace Sys2Proof.Machine

/-- The number of set bits among bits `k-1 .. 0`. -/
def popcountBelow {w : Nat} (v : BitVec w) (k : Nat) : Nat :=
  match k with
  | 0 => 0
  | k + 1 => popcountBelow v k + (v.getLsbD k).toNat

/-- `popcount(v)`, the number of set bits (R11). -/
def popcount {w : Nat} (v : BitVec w) : Nat := popcountBelow v w

/-- The XOR of bits `k-1 .. 0`. -/
def xorBelow {w : Nat} (v : BitVec w) (k : Nat) : Bool :=
  match k with
  | 0 => false
  | k + 1 => xorBelow v k ^^ v.getLsbD k

/-- `^v`, the XOR of all bits, 0 for an empty `v` (R11). -/
def xorReduce {w : Nat} (v : BitVec w) : Bit := BitVec.ofBool (xorBelow v w)

/-- `h = ceil(n/2)`, the size of the upper half (R111). -/
def upperSize (n : Nat) : Nat := (n + 1) / 2

/-- `up = d[n-1 : n-h]` (R111). -/
def upperHalf {n : Nat} (d : BitVec n) : BitVec (upperSize n) := d.extractLsb' (n - upperSize n) (upperSize n)

/-- `lo = d[n-h-1 : 0]` (R111). -/
def lowerHalf {n : Nat} (d : BitVec n) : BitVec (n - upperSize n) := d.extractLsb' 0 (n - upperSize n)

/-- The even-parity bit `e = ^up` (R112). -/
def evenParity {n : Nat} (d : BitVec n) : Bit := xorReduce (upperHalf d)

/-- The odd-parity bit `o = ~(^lo)` (R113). -/
def oddParity {n : Nat} (d : BitVec n) : Bit := ~~~ xorReduce (lowerHalf d)

/-- The 2-bit code of a RESULT (R29). -/
def resultBits (r : ResultCode) : BitVec 2 :=
  match r with
  | .noResult => 0b00#2
  | .ok => 0b01#2
  | .errFormat => 0b10#2
  | .errOp => 0b11#2

/-- The RESULT a rejection leaves (R161, R162). -/
def rejectResult (c : RejectCode) : ResultCode :=
  match c with
  | .errFormat => .errFormat
  | .errOp => .errOp

/-- BUSY is `st != IDLE` (R28; for `code3` see log 9). -/
def busy (st : Fsm) : Bit :=
  match st with
  | .idle => 0
  | .pulse => 1
  | .gap => 1
  | .code3 => 1

/-- The `status` output: DBG[9], LAST_LEN[8:3], RESULT[2:1], BUSY[0], the rest 0 (R28). -/
def statusWord (s : State) : BitVec 16 := 0#6 ++ s.dbg ++ s.lastLen ++ resultBits s.res ++ busy s.st

/-- `Record(...)`: KIND[127:126] OP[125:122] BITS[121:114] PAR_VALID[113] EVEN[112] ODD[111] LEN[110:105]
FRAME[104:65] 0[64] DATA[63:0] (R35). -/
def traceRecord (kind : ResultCode) (op : BitVec 4) (bits : BitVec 8) (pv even odd : Bit) (len : BitVec 6)
    (frame : FrameBits) (data : Credential) : TraceWord :=
  resultBits kind ++ op ++ bits ++ pv ++ even ++ odd ++ len ++ frame ++ 0#1 ++ data

end Sys2Proof.Machine
end

