-- ==== Sys2Proof/Machine/Operands.lean ====
section
/-! DEFINITION. Operand assembly (30_encoding.md R75): the packed 64-bit `data` of each command, and the
numbers a format stands for (00_scope.md R3). -/

namespace Sys2Proof.Machine

/-- SEND: `data = {OPA, OPB}`. -/
def packSend (opa opb : BitVec 32) : Credential := opa ++ opb

/-- SEND26: `data = zext_64({FC, CN})`, facility code in bits 23..16. -/
def packSend26 (fc : BitVec 8) (cn : BitVec 16) : Credential := (fc ++ cn).setWidth 64

/-- SEND34: `data = zext_64({FC, CN})`, facility code in bits 31..16. -/
def packSend34 (fc cn : BitVec 16) : Credential := (fc ++ cn).setWidth 64

/-- SENDEM4100: `data = zext_64({VER, CARDID})`, version in bits 39..32. -/
def packEm4100 (version : BitVec 8) (cardId : BitVec 32) : Credential := (version ++ cardId).setWidth 64

/-- The number of bits a format sends (R3). -/
def formatBits (fmt : Format) : Nat :=
  match fmt with
  | .f26 => 26
  | .f34 => 34
  | .f40 => 40

/-- A format as the 8-bit BITS value (R72). -/
def formatCode (fmt : Format) : BitVec 8 := BitVec.ofNat 8 (formatBits fmt)

end Sys2Proof.Machine
end

