-- ==== Sys2Proof/Machine/Frame.lean ====
section
/-! DEFINITION. The frame builder, the payload multiplexer (41_send.md R115 to R119). -/

namespace Sys2Proof.Machine

/-- What `BuildFrame` returns: the frame `F`, its length `L`, whether it has parity bits, and the two of them. -/
structure Framed where
  frame : FrameBits
  len : BitVec 6
  pv : Bit
  even : Bit
  odd : Bit
  deriving DecidableEq, Repr

/-- `zext_40({e, data[n-1:0], o})` with its parity bits: a frame of `n` data bits (R116). -/
def parityFrame (n : Nat) (data : Credential) (len : BitVec 6) : Framed :=
  let d := data.extractLsb' 0 n
  { frame := (evenParity d ++ d ++ oddParity d).setWidth 40
    len := len, pv := 1, even := evenParity d, odd := oddParity d }

/-- `BuildFrame(data, fmt)` (R119): `n = fmt - 2` data bits (R110), or all 40 bits and no parity (R117). -/
def buildFrame (data : Credential) (fmt : Format) : Framed :=
  match fmt with
  | .f26 => parityFrame 24 data 26
  | .f34 => parityFrame 32 data 34
  | .f40 => { frame := data.extractLsb' 0 40, len := 40, pv := 0, even := 0, odd := 0 }

/-- `frame[i]`. An index past the register is met only in states no run from a reset edge reaches, and
reads a free value there (log 10). -/
def frameBit (edge : Nat) (f : FrameBits) (i : Nat) : Bit :=
  if i < 40 then BitVec.ofBool (f.getLsbD i) else Config.frameBeyond edge

end Sys2Proof.Machine
end

