-- ==== Sys2Proof/Machine/Ops.lean ====
section
/-! DEFINITION. The shared operations on the registers. The block has no memory (20_memory.md R50) and no register
file (10_state.md R20). Raising an error is `State.raise` (60_exceptions.md R160); there is no return (R166). -/

namespace Sys2Proof.Machine

/-- The step's defaults: `done <- 0`, `trc_v <- 0`, `trc <- 0` (R37). -/
def State.edgeDefaults (s : State) : State := { s with done := 0, trcV := 0, trc := 0 }

/-- `ResetValues(debug_en)` (R180). -/
def State.resetEdge (debugEn : Bit) (s : State) : State := State.afterReset debugEn s.cfg s.host s.edge

/-- `DriveLow(b)`: line D0 for a 0, line D1 for a 1, and nothing else (R94). -/
def State.driveLow (b : Bit) (s : State) : State :=
  { s with d0 := if b = 0 then LOW else s.d0, d1 := if b = 1 then LOW else s.d1 }

/-- Emission of a trace record, when `dbg = 1` (R169). -/
def State.emit (r : TraceWord) (s : State) : State :=
  { s with trcV := if s.dbg = 1 then 1 else s.trcV, trc := if s.dbg = 1 then r else s.trc }

/-- `raise E`: the reject branch of the accept arm (R121, R160). `op`, `bits` and `data` are the command's OP, raw
BITS and `cmd[63:0]`. -/
def State.raise (code : RejectCode) (op : BitVec 4) (bits : BitVec 8) (data : Credential) (s : State) : State :=
  State.emit (traceRecord (rejectResult code) op bits 0 0 0 0 0 data)
    { s with res := rejectResult code, lastLen := 0, done := 1 }

/-- The accept branch of the accept arm (R120): load the frame and start its first pulse. -/
def State.accept (op : BitVec 4) (fmt : Format) (data : Credential) (s : State) : State :=
  let b := buildFrame data fmt
  State.driveLow (frameBit s.edge b.frame (b.len - 1).toNat)
    { s with frame := b.frame, len := b.len, idx := b.len - 1, cnt := 0, st := .pulse
             res := .noResult, lastLen := b.len
             hOp := op, hBits := formatCode fmt, hData := data, hPv := b.pv, hEven := b.even, hOdd := b.odd }

/-- `cnt <- cnt + 1` on a register of `CNT_W` bits (R92, R93, log 7). -/
def State.tick (s : State) : State := { s with cnt := (s.cnt + 1) % 2 ^ s.cfg.cntW }

/-- The end of a pulse: both lines HIGH, and the interval begins (R92). -/
def State.startGap (s : State) : State := { s with d0 := HIGH, d1 := HIGH, cnt := 0, st := .gap }

/-- The start of the next bit's pulse (R93). -/
def State.nextBit (s : State) : State :=
  State.driveLow (frameBit s.edge s.frame (s.idx - 1).toNat) { s with idx := s.idx - 1, cnt := 0, st := .pulse }

/-- The completion of a command after its last interval: RESULT OK, `done`, the trace record, and the credential
cleared (R93). -/
def State.complete (s : State) : State :=
  let r := traceRecord .ok s.hOp s.hBits s.hPv s.hEven s.hOdd s.len s.frame s.hData
  { State.emit r s with
    st := .idle, cnt := 0, res := .ok, done := 1, frame := 0, len := 0
    hOp := 0, hBits := 0, hData := 0, hPv := 0, hEven := 0, hOdd := 0 }

end Sys2Proof.Machine
end

