-- ==== Sys2Proof/Machine/Convenience.lean ====
section
/-! DEFINITION. The meanings of SEND26, SEND34 and SENDEM4100 (42_convenience.md R140 to R142, R146). They read no
header and no operand bit above the declared widths. -/

namespace Sys2Proof.Machine

/-- SEND26 (R140). -/
def execSend26 (fc : BitVec 8) (cn : BitVec 16) (s : State) : Host.Outcome State Fault Refusal :=
  .next (s.accept 0x2#4 .f26 (packSend26 fc cn))

/-- SEND34 (R141). -/
def execSend34 (fc cn : BitVec 16) (s : State) : Host.Outcome State Fault Refusal :=
  .next (s.accept 0x3#4 .f34 (packSend34 fc cn))

/-- SENDEM4100 (R142). -/
def execSendEm4100 (version : BitVec 8) (cardId : BitVec 32) (s : State) : Host.Outcome State Fault Refusal :=
  .next (s.accept 0x4#4 .f40 (packEm4100 version cardId))

end Sys2Proof.Machine
end

