-- ==== Sys2Proof/Machine/Reserved.lean ====
section
/-! DEFINITION. The meanings of the reserved OPs (60_exceptions.md R162): rejected with ERR_OP, recording OP, the raw
BITS and `cmd[63:0]`. -/

namespace Sys2Proof.Machine

/-- OP 0x0 (R162). -/
def execReserved0 (h : Header) (opa opb : BitVec 32) (s : State) : Host.Outcome State Fault Refusal :=
  .next (s.raise .errOp 0x0#4 h.bits (opa ++ opb))

/-- OP 0x5 (R162). -/
def execReserved5 (h : Header) (opa opb : BitVec 32) (s : State) : Host.Outcome State Fault Refusal :=
  .next (s.raise .errOp 0x5#4 h.bits (opa ++ opb))

/-- OP 0x6 and 0x7 (R162). -/
def execReserved6to7 (low : BitVec 1) (h : Header) (opa opb : BitVec 32) (s : State) :
    Host.Outcome State Fault Refusal :=
  .next (s.raise .errOp (0b011#3 ++ low) h.bits (opa ++ opb))

/-- OP 0x8 to 0xF (R162). -/
def execReserved8toF (low : BitVec 3) (h : Header) (opa opb : BitVec 32) (s : State) :
    Host.Outcome State Fault Refusal :=
  .next (s.raise .errOp (0b1#1 ++ low) h.bits (opa ++ opb))

end Sys2Proof.Machine
end

