-- ==== Sys2Proof/WellFormed.lean ====
section
/-! DEFINITION. Which commands an encoder may form: the checks of R74, R77 and R79, each under a name. The
block itself checks none of this: it performs every word (R74, R76, R77). -/

namespace Sys2Proof

/-- What an encoder may not write. -/
inductive Flaw where
  /-- RSV is not 0 (R74). -/
  | rsvSet
  /-- BITS or WFC of a convenience command is not 0 (R77, R79). -/
  | unusedHeaderSet
  /-- An operand bit above the command's declared width is not 0 (R77, R79). -/
  | unusedOperandSet
  /-- The OP is reserved: the assembler has no line for it (R77, R79). -/
  | reservedOp
  deriving DecidableEq, Repr

/-- The checks on the header of a convenience command. -/
def Header.flaw (h : Header) : Option Flaw :=
  if h.rsv ≠ 0 then some .rsvSet
  else if h.bits ≠ 0 ∨ h.wfc ≠ 0 then some .unusedHeaderSet
  else none

/-- The first flaw of a command, if it has one. -/
def Instr.flaw (i : Instr) : Option Flaw :=
  match i with
  | .send h _ _ => if h.rsv ≠ 0 then some .rsvSet else none
  | .send26 h opaHi _ opbHi _ => h.flaw.or (if opaHi ≠ 0 ∨ opbHi ≠ 0 then some .unusedOperandSet else none)
  | .send34 h opaHi _ opbHi _ => h.flaw.or (if opaHi ≠ 0 ∨ opbHi ≠ 0 then some .unusedOperandSet else none)
  | .sendEm4100 h opaHi _ _ => h.flaw.or (if opaHi ≠ 0 then some .unusedOperandSet else none)
  | .reserved0 _ _ _ => some .reservedOp
  | .reserved5 _ _ _ => some .reservedOp
  | .reserved6to7 _ _ _ _ => some .reservedOp
  | .reserved8toF _ _ _ _ => some .reservedOp

/-- A command an encoder may form. -/
def Instr.wf (i : Instr) : Bool := i.flaw.isNone

end Sys2Proof
end

