-- ==== Sys2Proof/Decode.lean ====
section
/-! DEFINITION. The command word (30_encoding.md R70 to R78): its fields, the decoder, the spec's pure
`Decode` verdict, the opcode table, and the encoder. Every 96-bit word decodes. -/

namespace Sys2Proof

/-- OP, `cmd[95:92]` (R70). -/
def cmdOp (w : CmdWord) : BitVec 4 := w.extractLsb' 92 4
/-- BITS, `cmd[91:84]` (R70). -/
def cmdBits (w : CmdWord) : BitVec 8 := w.extractLsb' 84 8
/-- WFC, `cmd[83]` (R70). -/
def cmdWfc (w : CmdWord) : Bit := w.extractLsb' 83 1
/-- RSV, `cmd[82:64]` (R70). -/
def cmdRsv (w : CmdWord) : BitVec 19 := w.extractLsb' 64 19
/-- OPA, `cmd[63:32]` (R70). -/
def cmdOpa (w : CmdWord) : BitVec 32 := w.extractLsb' 32 32
/-- OPB, `cmd[31:0]` (R70). -/
def cmdOpb (w : CmdWord) : BitVec 32 := w.extractLsb' 0 32

/-- BITS, WFC and RSV together. -/
def cmdHeader (w : CmdWord) : Header := { bits := cmdBits w, wfc := cmdWfc w, rsv := cmdRsv w }

/-- The command a word stands for: R71's OP values, R75's operand fields. -/
def decodeWord (w : CmdWord) : Instr :=
  match (cmdOp w).toNat with
  | 0 => .reserved0 (cmdHeader w) (cmdOpa w) (cmdOpb w)
  | 1 => .send (cmdHeader w) (cmdOpa w) (cmdOpb w)
  | 2 => .send26 (cmdHeader w) (w.extractLsb' 40 24) (w.extractLsb' 32 8) (w.extractLsb' 16 16) (w.extractLsb' 0 16)
  | 3 => .send34 (cmdHeader w) (w.extractLsb' 48 16) (w.extractLsb' 32 16) (w.extractLsb' 16 16) (w.extractLsb' 0 16)
  | 4 => .sendEm4100 (cmdHeader w) (w.extractLsb' 40 24) (w.extractLsb' 32 8) (cmdOpb w)
  | 5 => .reserved5 (cmdHeader w) (cmdOpa w) (cmdOpb w)
  | 6 | 7 => .reserved6to7 (w.extractLsb' 92 1) (cmdHeader w) (cmdOpa w) (cmdOpb w)
  | _ => .reserved8toF (w.extractLsb' 92 3) (cmdHeader w) (cmdOpa w) (cmdOpb w)

/-- BITS as a format: 26 (0x1A), 34 (0x22), 40 (0x28), and nothing else (R72). -/
def Format.ofBits (b : BitVec 8) : Option Format :=
  if b = 26#8 then some .f26 else if b = 34#8 then some .f34 else if b = 40#8 then some .f40 else none

/-- R76's `Decode`, written from its pseudocode on the word itself. The meanings do not use it: a statement says
that they agree with it. -/
def classify (cmd : CmdWord) : Verdict :=
  let opa := cmdOpa cmd
  let opb := cmdOpb cmd
  if cmdOp cmd = 0x1#4 then
    match Format.ofBits (cmdBits cmd) with
    | some fmt => .accept 0x1#4 fmt (opa ++ opb)
    | none => .reject .errFormat
  else if cmdOp cmd = 0x2#4 then
    .accept 0x2#4 .f26 ((opa.extractLsb' 0 8 ++ opb.extractLsb' 0 16).setWidth 64)
  else if cmdOp cmd = 0x3#4 then
    .accept 0x3#4 .f34 ((opa.extractLsb' 0 16 ++ opb.extractLsb' 0 16).setWidth 64)
  else if cmdOp cmd = 0x4#4 then
    .accept 0x4#4 .f40 ((opa.extractLsb' 0 8 ++ opb.extractLsb' 0 32).setWidth 64)
  else .reject .errOp

/-- A row of spec/opcode_table.json: a word belongs to the row when `w & mask = value`. -/
structure OpcodeRow where
  mnemonic : String
  value : CmdWord
  mask : CmdWord
  deriving DecidableEq, Repr

/-- spec/opcode_table.json, its rows in its order. -/
def opcodeTable : List OpcodeRow :=
  [ ⟨"SEND",       0x100000000000000000000000#96, 0xF00000000000000000000000#96⟩,
    ⟨"SEND26",     0x200000000000000000000000#96, 0xF00000000000000000000000#96⟩,
    ⟨"SEND34",     0x300000000000000000000000#96, 0xF00000000000000000000000#96⟩,
    ⟨"SENDEM4100", 0x400000000000000000000000#96, 0xF00000000000000000000000#96⟩,
    ⟨"(reserved)", 0x000000000000000000000000#96, 0xF00000000000000000000000#96⟩,
    ⟨"(reserved)", 0x500000000000000000000000#96, 0xF00000000000000000000000#96⟩,
    ⟨"(reserved)", 0x600000000000000000000000#96, 0xE00000000000000000000000#96⟩,
    ⟨"(reserved)", 0x800000000000000000000000#96, 0x800000000000000000000000#96⟩ ]

/-- Whether a word belongs to a row. -/
def OpcodeRow.covers (r : OpcodeRow) (w : CmdWord) : Bool := w &&& r.mask == r.value

/-- The place of a command's row in `opcodeTable`. -/
def Instr.tableRow (i : Instr) : Nat :=
  match i with
  | .send _ _ _ => 0
  | .send26 _ _ _ _ _ => 1
  | .send34 _ _ _ _ _ => 2
  | .sendEm4100 _ _ _ _ => 3
  | .reserved0 _ _ _ => 4
  | .reserved5 _ _ _ => 5
  | .reserved6to7 _ _ _ _ => 6
  | .reserved8toF _ _ _ _ => 7

/-- Why bits do not decode: the only reason is that they are not one command word (R70, R78). -/
inductive DecodeError where
  /-- More than 96 bits. -/
  | longerThanOneCommand
  deriving DecidableEq, Repr

/-- Decoding of `nbits` bits numbered from the least significant; the word's bits above them are 0 (log 14). -/
def decode (nbits w : Nat) : Except DecodeError Instr :=
  if nbits ≤ 96 then .ok (decodeWord (BitVec.ofNat 96 (w % 2 ^ nbits))) else .error .longerThanOneCommand

/-- The instruction the decoder reads from bits numbered as spec/opcode_table.json numbers them (log 14). -/
def decodeTableWord (nbits w : Nat) : Option Instr :=
  match decode nbits w with
  | .ok i => some i
  | .error _ => none

/-- The word made of R70's fields: `(OP << 92) | (BITS << 84) | (WFC << 83) | (RSV << 64) | (OPA << 32) | OPB`. -/
def encodeFields (op : BitVec 4) (h : Header) (opa opb : BitVec 32) : CmdWord :=
  op ++ h.bits ++ h.wfc ++ h.rsv ++ opa ++ opb

/-- A command's OP value (R71). -/
def Instr.op (i : Instr) : BitVec 4 :=
  match i with
  | .send _ _ _ => 0x1#4
  | .send26 _ _ _ _ _ => 0x2#4
  | .send34 _ _ _ _ _ => 0x3#4
  | .sendEm4100 _ _ _ _ => 0x4#4
  | .reserved0 _ _ _ => 0x0#4
  | .reserved5 _ _ _ => 0x5#4
  | .reserved6to7 low _ _ _ => 0b011#3 ++ low
  | .reserved8toF low _ _ _ => 0b1#1 ++ low

/-- The word of a command (R70, R75). -/
def encode (i : Instr) : CmdWord :=
  match i with
  | .send h opa opb => encodeFields i.op h opa opb
  | .send26 h opaHi fc opbHi cn => encodeFields i.op h (opaHi ++ fc) (opbHi ++ cn)
  | .send34 h opaHi fc opbHi cn => encodeFields i.op h (opaHi ++ fc) (opbHi ++ cn)
  | .sendEm4100 h opaHi version cardId => encodeFields i.op h (opaHi ++ version) cardId
  | .reserved0 h opa opb => encodeFields i.op h opa opb
  | .reserved5 h opa opb => encodeFields i.op h opa opb
  | .reserved6to7 _ h opa opb => encodeFields i.op h opa opb
  | .reserved8toF _ h opa opb => encodeFields i.op h opa opb

end Sys2Proof
end

