-- ==== Sys2Proof/Machine/Send.lean ====
section
/-! DEFINITION. The meaning of SEND (41_send.md R122). A meaning is what R37's `AcceptArm` does with the command, at an edge
where the block accepts it; `clockEdge` sees to it that there is such an edge (log 13). -/

namespace Sys2Proof.Machine

/-- SEND: accepted with BITS 26, 34 or 40 (R120), otherwise rejected with ERR_FORMAT (R121, R161). WFC and
RSV are not read (R73, R74). -/
def execSend (h : Header) (opa opb : BitVec 32) (s : State) : Host.Outcome State Fault Refusal :=
  match Format.ofBits h.bits with
  | some fmt => .next (s.accept 0x1#4 fmt (packSend opa opb))
  | none => .next (s.raise .errFormat 0x1#4 h.bits (opa ++ opb))

end Sys2Proof.Machine
end

