-- ==== Sys2Proof/Machine/Dispatch.lean ====
section
/-! DEFINITION. What the block does with a command at the edge that accepts it: one meaning for each constructor
of Instr. -/

namespace Sys2Proof.Machine

def exec (i : Instr) (s : State) : Host.Outcome State Fault Refusal :=
  match i with
  | .send h opa opb => Sys2Proof.Machine.execSend h opa opb s
  | .send26 _ _ fc _ cn => Sys2Proof.Machine.execSend26 fc cn s
  | .send34 _ _ fc _ cn => Sys2Proof.Machine.execSend34 fc cn s
  | .sendEm4100 _ _ version cardId => Sys2Proof.Machine.execSendEm4100 version cardId s
  | .reserved0 h opa opb => Sys2Proof.Machine.execReserved0 h opa opb s
  | .reserved5 h opa opb => Sys2Proof.Machine.execReserved5 h opa opb s
  | .reserved6to7 low h opa opb => Sys2Proof.Machine.execReserved6to7 low h opa opb s
  | .reserved8toF low h opa opb => Sys2Proof.Machine.execReserved8toF low h opa opb s

end Sys2Proof.Machine
end

