-- ==== Sys2Proof/Machine/Ports.lean ====
section
/-! DEFINITION. The ports (10_state.md R23, R24): what the host drives at the coming edge, and what the block
shows in the current cycle. -/

namespace Sys2Proof.Machine

/-- Port levels that offer no command. The levels of `cmd` and `debug_en` are open there; 0 is driven (log 5). -/
def quietInputs : Inputs := { rst := 0, debugEn := 0, cmdValid := 0, cmd := 0 }

/-- Port levels that offer a command (R80, log 5). -/
def offerInputs (w : CmdWord) : Inputs := { rst := 0, debugEn := 0, cmdValid := 1, cmd := w }

/-- Port levels of the directive `RESET dbg` (R80, log 5). -/
def resetInputs (dbg : Bit) : Inputs := { rst := 1, debugEn := dbg, cmdValid := 0, cmd := 0 }

/-- One edge of the host (R80, R171): the levels it drives, and what is left for the edges after it. `ready` says that
the block takes a command, `done` is the block's strobe in this cycle, `k` the number of the edge. `WAIT_DONE` takes no
edge when `done = 1` (log 6). Past the list the host is free (log 4). -/
def hostEdge (ready : Bool) (done : Bit) (k : Nat) (acts : List HostAct) : Inputs × List HostAct :=
  match acts with
  | [] => (Config.hostInputs k, [])
  | .drive i :: rest => (i, rest)
  | .reset dbg :: rest => (resetInputs dbg, rest)
  | .command w :: rest => (offerInputs w, if ready then rest else .command w :: rest)
  | .waitDone :: rest => if done = 1 then hostEdge ready done k rest else (quietInputs, .waitDone :: rest)
  | .delay 0 :: rest => hostEdge ready done k rest
  | .delay (n + 1) :: rest => (quietInputs, .delay n :: rest)

/-- The block takes a command that is offered without a reset: it is IDLE (R30), and a reset edge has happened (R184,
log 22). -/
def State.takesCommand (s : State) : Bool := s.st == .idle && s.resetSeen

/-- The inputs sampled at the coming edge (R13, R23). -/
def State.sample (s : State) : Inputs := (hostEdge s.takesCommand s.done s.edge s.host).1

/-- The model's own fields after the coming edge: the host has moved on, one more edge is counted. -/
def State.advance (s : State) : State :=
  { s with host := (hostEdge s.takesCommand s.done s.edge s.host).2, edge := s.edge + 1 }

/-- `cmd_ready = (st = IDLE) and (rst = 0)` (R30). -/
def State.cmdReady (s : State) : Bit := if s.st = .idle ∧ s.sample.rst = 0 then 1 else 0

/-- The output ports (R24). -/
structure Outputs where
  d0 : Bit
  d1 : Bit
  oe : Bit
  cmdReady : Bit
  status : BitVec 16
  done : Bit
  traceValid : Bit
  trace : TraceWord
  deriving DecidableEq, Repr

/-- The levels on the output ports in the current cycle (R24). Reading them changes nothing (R56). -/
def State.outputs (s : State) : Outputs :=
  { d0 := s.d0, d1 := s.d1, oe := s.oe, cmdReady := s.cmdReady, status := statusWord s
    done := s.done, traceValid := s.trcV, trace := s.trc }

/-- The level the block drives on a physical pin, if the pin is one of its two and the outputs are on (R24, R42). -/
def State.pinLevel (s : State) (pin : Nat) : Option Bit :=
  if s.oe = 1 then
    if pin = s.cfg.pinD0 then some s.d0 else if pin = s.cfg.pinD1 then some s.d1 else none
  else none

end Sys2Proof.Machine
end

