-- ==== Sys2Proof/Machine/Pulse.lean ====
section
/-! DEFINITION. SENDBIT and the timing controller (40_pulse.md R90 to R94), and the recovery from FSM code 3
(10_state.md R27). -/

namespace Sys2Proof.Machine

/-- `PulseArm()`, for `st = PULSE` (R92). -/
def pulseArm (s : State) : State := if s.cnt = s.cfg.pwCycles - 1 then s.startGap else s.tick

/-- `GapArm()`, for `st = GAP` (R93). -/
def gapArm (s : State) : State :=
  if s.cnt ≠ s.cfg.ipiCycles - 1 then s.tick
  else if s.idx ≠ 0 then s.nextBit
  else s.complete

/-- The arm of R37 for `st = 3` (R27, log 8). -/
def code3Arm (s : State) : State := { s with st := .idle, d0 := HIGH, d1 := HIGH, cnt := 0 }

end Sys2Proof.Machine
end

