-- ==== Sys2Proof/Machine/Edge.lean ====
section
/-! DEFINITION. `Step(in)` of 10_state.md R37: what one rising edge of `clk` does with the inputs it samples, in
the priority of 60_exceptions.md R165. -/

namespace Sys2Proof.Machine

/-- The command the block accepts: the whole `cmd` port, decoded (R56, R76). -/
def fetch (inp : Inputs) : Instr := decodeWord inp.cmd

/-- `Step(in)` (R37). A command is accepted under R30's three conditions, and not before the first reset edge (R184).
DEDUCED: an offer before it leaves what an edge in IDLE without a command leaves (log 22).
DESIGN CHOICE: before the first reset edge, where R43 leaves every register unspecified, every other edge steps the
drawn state by R37 too (log 24). -/
def clockEdge (inp : Inputs) (s : State) : Host.Outcome State Fault Refusal :=
  if inp.rst = 1 then .next (s.resetEdge inp.debugEn)
  else
    match s.st with
    | .idle =>
      if inp.cmdValid = 1 ∧ s.resetSeen = true then exec (fetch inp) s.edgeDefaults else .next s.edgeDefaults
    | .pulse => .next (pulseArm s.edgeDefaults)
    | .gap => .next (gapArm s.edgeDefaults)
    | .code3 => .next (code3Arm s.edgeDefaults)

/-- The block at the coming edge, with a well-formed configuration (R9). -/
def edgeStep (s : State) : Host.Outcome State Fault Refusal :=
  if s.cfg.wf then clockEdge s.sample s.advance else .refused .configNotWellFormed

/-- The state in which the host offers the command of `nbits` bits `w` at the coming edge and the block is ready
for it (log 12). -/
def offerNext (s : State) (nbits w : Nat) : State :=
  { s with st := .idle, resetSeen := true, host := .command (BitVec.ofNat 96 (w % 2 ^ nbits)) :: s.host }

end Sys2Proof.Machine
end

