-- ==== Sys2Proof/Machine/Step.lean ====
section
/-! DEFINITION. One step of the machine is one rising edge of `clk` (10_state.md R22, R37). -/

namespace Sys2Proof.Machine

/-- One rising edge of `clk`. -/
def step (s : State) : Host.Outcome State Fault Refusal := edgeStep s

/-- `s` with a command word offered so that the very next step accepts it (log 12). -/
def State.withFetchWord (s : State) (nbits w : Nat) : State := offerNext s nbits w

end Sys2Proof.Machine
end

