-- ==== Sys2Proof/Machine/Assembler.lean ====
section
/-! DEFINITION. The assembler of 30_encoding.md R79 and the host directives of R80: a line of text to what the host
does. No step uses it. -/

namespace Sys2Proof.Machine

/-- One line: a command (R79) or a host directive (R80), its operands numbers. -/
inductive AsmLine where
  | send (data bits wfc : Nat)
  | send26 (fc cn : Nat)
  | send34 (fc cn : Nat)
  | sendEm4100 (version cardId : Nat)
  | reset (dbg : Nat)
  | waitDone
  | delay (n : Nat)
  | cmd (word : Nat)
  deriving DecidableEq, Repr

/-- Why the assembler refuses a line. -/
inductive AsmError where
  /-- An operand does not fit its stated width (R79). -/
  | operandTooWide
  /-- The line begins with no mnemonic or directive. -/
  | unknownMnemonic
  /-- The operands are not as many, or not numbers, as the line's form asks. -/
  | badOperands
  deriving DecidableEq, Repr

/-- A header as the assembler writes it: RSV 0 (R74, R79). -/
def asmHeader (bits wfc : Nat) : Header := { bits := BitVec.ofNat 8 bits, wfc := BitVec.ofNat 1 wfc, rsv := 0 }

/-- The command of a line, if it is a command line and its operands fit (R79). An illegal `bits` below 256 is not
refused. -/
def assembleCommand (l : AsmLine) : Except AsmError (Option Instr) :=
  match l with
  | .send data bits wfc =>
    if data < 2 ^ 64 ∧ bits < 2 ^ 8 ∧ wfc < 2 then
      .ok (some (.send (asmHeader bits wfc) (BitVec.ofNat 32 (data / 2 ^ 32)) (BitVec.ofNat 32 data)))
    else .error .operandTooWide
  | .send26 fc cn =>
    if fc < 2 ^ 8 ∧ cn < 2 ^ 16 then .ok (some (.send26 (asmHeader 0 0) 0 (BitVec.ofNat 8 fc) 0 (BitVec.ofNat 16 cn)))
    else .error .operandTooWide
  | .send34 fc cn =>
    if fc < 2 ^ 16 ∧ cn < 2 ^ 16 then .ok (some (.send34 (asmHeader 0 0) 0 (BitVec.ofNat 16 fc) 0 (BitVec.ofNat 16 cn)))
    else .error .operandTooWide
  | .sendEm4100 version cardId =>
    if version < 2 ^ 8 ∧ cardId < 2 ^ 32 then
      .ok (some (.sendEm4100 (asmHeader 0 0) 0 (BitVec.ofNat 8 version) (BitVec.ofNat 32 cardId)))
    else .error .operandTooWide
  | .reset _ => .ok none
  | .waitDone => .ok none
  | .delay _ => .ok none
  | .cmd _ => .ok none

/-- What the host does for a line (R79, R80). -/
def assembleLine (l : AsmLine) : Except AsmError HostAct :=
  match l with
  | .reset dbg => if dbg < 2 then .ok (.reset (BitVec.ofNat 1 dbg)) else .error .operandTooWide
  | .waitDone => .ok .waitDone
  | .delay n => .ok (.delay n)
  | .cmd word => if word < 2 ^ 96 then .ok (.command (BitVec.ofNat 96 word)) else .error .operandTooWide
  | l =>
    match assembleCommand l with
    | .ok (some i) => .ok (.command (encode i))
    | .ok none => .error .unknownMnemonic
    | .error e => .error e

/-- Space between words (log 17). -/
def isBlank (c : Char) : Bool := c == ' ' || c == '\t' || c == '\r'

/-- A text without the space around it. -/
def trim (l : List Char) : List Char := ((l.dropWhile isBlank).reverse.dropWhile isBlank).reverse

/-- A text cut at every `sep`. -/
def cutAt (sep : Char) (l : List Char) : List (List Char) :=
  match l with
  | [] => [[]]
  | c :: cs =>
    if c == sep then [] :: cutAt sep cs
    else
      match cutAt sep cs with
      | [] => [[c]]
      | h :: t => (c :: h) :: t

/-- The value of a digit. -/
def digitValue (c : Char) : Option Nat :=
  if '0' ≤ c ∧ c ≤ '9' then some (c.toNat - '0'.toNat)
  else if 'a' ≤ c ∧ c ≤ 'f' then some (c.toNat - 'a'.toNat + 10)
  else if 'A' ≤ c ∧ c ≤ 'F' then some (c.toNat - 'A'.toNat + 10)
  else none

/-- The value of digits in a base, after `acc`. -/
def readDigits (base acc : Nat) (l : List Char) : Option Nat :=
  match l with
  | [] => some acc
  | c :: cs =>
    match digitValue c with
    | some d => if d < base then readDigits base (acc * base + d) cs else none
    | none => none

/-- A decimal or `0x` hexadecimal number (R79). -/
def readNumber (l : List Char) : Option Nat :=
  match l with
  | [] => none
  | '0' :: 'x' :: [] => none
  | '0' :: 'x' :: ds => readDigits 16 0 ds
  | ds => readDigits 10 0 ds

/-- A line's operands as numbers. -/
def readOperands (l : List (List Char)) : Option (List Nat) :=
  match l with
  | [] => some []
  | w :: ws =>
    match readNumber w, readOperands ws with
    | some n, some ns => some (n :: ns)
    | _, _ => none

/-- A mnemonic or directive with its operands. -/
def lineOf (word : List Char) (ops : List Nat) : Except AsmError AsmLine :=
  if word = "SEND".toList then
    match ops with
    | [data, bits] => .ok (.send data bits 0)
    | [data, bits, wfc] => .ok (.send data bits wfc)
    | _ => .error .badOperands
  else if word = "SEND26".toList then
    match ops with
    | [fc, cn] => .ok (.send26 fc cn)
    | _ => .error .badOperands
  else if word = "SEND34".toList then
    match ops with
    | [fc, cn] => .ok (.send34 fc cn)
    | _ => .error .badOperands
  else if word = "SENDEM4100".toList then
    match ops with
    | [version, cardId] => .ok (.sendEm4100 version cardId)
    | _ => .error .badOperands
  else if word = "RESET".toList then
    match ops with
    | [dbg] => .ok (.reset dbg)
    | _ => .error .badOperands
  else if word = "WAIT_DONE".toList then
    match ops with
    | [] => .ok .waitDone
    | _ => .error .badOperands
  else if word = "DELAY".toList then
    match ops with
    | [n] => .ok (.delay n)
    | _ => .error .badOperands
  else if word = "CMD".toList then
    match ops with
    | [w] => .ok (.cmd w)
    | _ => .error .badOperands
  else .error .unknownMnemonic

/-- One line of text: `;` starts a comment, a line without a command is skipped. The word of CMD may hold
underscores (log 17). -/
def parseLine (text : List Char) : Except AsmError (Option AsmLine) :=
  let code := trim (text.takeWhile (· != ';'))
  if code.isEmpty then .ok none
  else
    let word := code.takeWhile (fun c => !isBlank c)
    let rest := trim (code.dropWhile (fun c => !isBlank c))
    let rest := if word = "CMD".toList then rest.filter (· != '_') else rest
    let ops := if rest.isEmpty then [] else (cutAt ',' rest).map trim
    match readOperands ops with
    | some ns => (lineOf word ns).map some
    | none => .error .badOperands

/-- The lines of a program, the first of them number `n`; a refusal names the line (R79). -/
def assembleLines (n : Nat) (lines : List (List Char)) : Except (Nat × AsmError) (List HostAct) :=
  match lines with
  | [] => .ok []
  | l :: ls =>
    match parseLine l with
    | .error e => .error (n, e)
    | .ok none => assembleLines (n + 1) ls
    | .ok (some line) =>
      match assembleLine line with
      | .error e => .error (n, e)
      | .ok act => (assembleLines (n + 1) ls).map (act :: ·)

/-- A program as the host's actions (R79, R80). -/
def assemble (text : String) : Except (Nat × AsmError) (List HostAct) := assembleLines 1 (cutAt '\n' text.toList)

end Sys2Proof.Machine
end

