-- ==== Sys2Proof/Safety.lean ====
section
/-! DEFINITION. What claims are stated in: the machine's invariant (10_state.md R38 to R40 and what the rules
add), runs under given inputs, what the reader sees on the lines, and what a jitter bound must meet. -/

namespace Sys2Proof.Machine

/-- The state an outcome leads to, if it is a next state. -/
def nextOf (o : Host.Outcome State Fault Refusal) : Option State :=
  match o with
  | .next s => some s
  | .fault _ => none
  | .refused _ => none

/-- `st` is PULSE or GAP (R31). -/
def State.sending (s : State) : Prop := s.st = .pulse ∨ s.st = .gap

/-- Both lines HIGH. -/
def State.linesHigh (s : State) : Prop := s.d0 = HIGH ∧ s.d1 = HIGH

/-- A pulse for bit `b` on the lines: D0 LOW for a 0, D1 LOW for a 1, the other line HIGH (R94). -/
def State.pulses (s : State) (b : Bit) : Prop :=
  (b = 0 → s.d0 = LOW ∧ s.d1 = HIGH) ∧ (b = 1 → s.d0 = HIGH ∧ s.d1 = LOW)

/-- The block takes the command on `cmd` at the coming edge (R30, R184). -/
def State.offered (s : State) : Prop :=
  s.st = .idle ∧ s.sample.rst = 0 ∧ s.sample.cmdValid = 1 ∧ s.resetSeen = true

/-- The coming edge accepts a valid command (R120). -/
def State.acceptsAt (s : State) (op : BitVec 4) (fmt : Format) (data : Credential) : Prop :=
  s.offered ∧ classify s.sample.cmd = .accept op fmt data

/-- The coming edge rejects a command (R121). -/
def State.rejectsAt (s : State) (code : RejectCode) : Prop := s.offered ∧ classify s.sample.cmd = .reject code

/-- The coming edge completes a command (R93). -/
def State.completesAt (s : State) : Prop :=
  s.st = .gap ∧ s.sample.rst = 0 ∧ s.cnt = s.cfg.ipiCycles - 1 ∧ s.idx = 0

/-- What holds in every cycle after a reset edge. -/
structure State.Inv (s : State) : Prop where
  /-- R184: a reset edge has happened. -/
  wasReset : s.resetSeen = true
  /-- R27: code 3 is not reached. -/
  legalFsm : s.st ≠ .code3
  /-- R44. -/
  outputsOn : s.oe = 1
  /-- R39. -/
  linesQuiet : s.st ≠ .pulse → s.linesHigh
  /-- R26, R38: in PULSE the line of the bit `frame[idx]` is LOW, the other HIGH. -/
  linePulsed : s.st = .pulse → s.pulses (BitVec.ofBool (s.frame.getLsbD s.idx.toNat))
  /-- R40. -/
  cntPulse : s.st = .pulse → s.cnt < s.cfg.pwCycles
  /-- R40. -/
  cntGap : s.st = .gap → s.cnt < s.cfg.ipiCycles
  /-- R40. -/
  cntIdle : s.st = .idle → s.cnt = 0
  /-- R40. -/
  lenSending : s.sending → (s.len = 26 ∨ s.len = 34 ∨ s.len = 40) ∧ s.idx < s.len
  /-- R29, R33: RESULT reads NONE and LAST_LEN the frame's length for the whole transmission. -/
  statusSending : s.sending → s.res = .noResult ∧ s.lastLen = s.len ∧ s.done = 0
  /-- R36: the hold registers are those of the frame in flight. -/
  holdSending : s.sending → ∃ fmt, s.hBits = formatCode fmt ∧
    buildFrame s.hData fmt = { frame := s.frame, len := s.len, pv := s.hPv, even := s.hEven, odd := s.hOdd }
  /-- R36, R93: in IDLE no credential is kept. -/
  clearedIdle : s.st = .idle → s.frame = 0 ∧ s.len = 0 ∧ s.idx = 0 ∧ s.hOp = 0 ∧ s.hBits = 0 ∧ s.hData = 0 ∧
    s.hPv = 0 ∧ s.hEven = 0 ∧ s.hOdd = 0
  /-- R32: `done` comes with a finished command's RESULT. -/
  doneFinished : s.done = 1 → s.st = .idle ∧ s.res ≠ .noResult
  /-- R169: a trace record in the `done` cycle when `dbg = 1`, and in no other cycle. -/
  traceWithDone : s.trcV = s.done &&& s.dbg
  /-- R169: `trc = 0` without a record. -/
  traceQuiet : s.trcV = 0 → s.trc = 0

/-- The host drives the levels `ins`, one entry an edge, at the coming edges, and nothing is said of later ones. -/
def State.drivenBy (s : State) (ins : List Inputs) : Prop := ∃ rest, s.host = ins.map HostAct.drive ++ rest

/-- The state after `n` edges (Host.Core.run of this machine, at its own types). -/
def runEdges (n : Nat) (s : State) : Host.Outcome State Fault Refusal :=
  match n with
  | 0 => .next s
  | n + 1 =>
    match step s with
    | .next t => runEdges n t
    | .fault r => .fault r
    | .refused r => .refused r

/-- The levels the lines D0 and D1 have in the cycles that follow the next `n` edges, in order. -/
def lineSamples (s : State) (n : Nat) : List (Bit × Bit) :=
  match n with
  | 0 => []
  | n + 1 =>
    match step s with
    | .next t => (t.d0, t.d1) :: lineSamples t n
    | .fault _ => []
    | .refused _ => []

/-- The bits a reader sees in line samples, given the levels before them: a 0 for each HIGH-to-LOW edge on D0, a 1
for each on D1 (R95, R99). -/
def readerBits (before : Bit × Bit) (samples : List (Bit × Bit)) : List Bit :=
  match samples with
  | [] => []
  | l :: ls =>
    (if before.1 = HIGH ∧ l.1 = LOW then [0#1] else []) ++ (if before.2 = HIGH ∧ l.2 = LOW then [1#1] else []) ++
      readerBits l ls

/-- The number of level changes on the two lines together (R99). -/
def lineTransitions (before : Bit × Bit) (samples : List (Bit × Bit)) : Nat :=
  match samples with
  | [] => 0
  | l :: ls => (if before.1 ≠ l.1 then 1 else 0) + (if before.2 ≠ l.2 then 1 else 0) + lineTransitions l ls

/-- The bits of a frame of `len` bits in sending order, `F[len-1]` down to `F[0]` (R54). -/
def sendingOrder (f : FrameBits) (len : Nat) : List Bit :=
  match len with
  | 0 => []
  | k + 1 => BitVec.ofBool (f.getLsbD k) :: sendingOrder f k

/-- Two states with the same transmission: everything the lines and their timing depend on (R41, R170). -/
def State.sameWire (s t : State) : Prop :=
  s.st = t.st ∧ s.frame = t.frame ∧ s.len = t.len ∧ s.idx = t.idx ∧ s.cnt = t.cnt ∧ s.d0 = t.d0 ∧ s.d1 = t.d1 ∧
    s.oe = t.oe ∧ s.cfg = t.cfg ∧ s.resetSeen = t.resetSeen ∧ s.edge = t.edge

/-- Two states that differ at most in the diagnostic flag and the trace output (R170). -/
def State.sameButTrace (s t : State) : Prop :=
  { s with dbg := 0, trcV := 0, trc := 0 } = { t with dbg := 0, trcV := 0, trc := 0 }

/-- Two states that differ at most in the OP kept for the trace and in a trace record's OP field (R143). -/
def State.sameButOp (s t : State) : Prop :=
  { s with hOp := 0, trc := 0 } = { t with hOp := 0, trc := 0 } ∧
    s.trc.extractLsb' 126 2 = t.trc.extractLsb' 126 2 ∧ s.trc.extractLsb' 0 122 = t.trc.extractLsb' 0 122

end Sys2Proof.Machine

namespace Sys2Proof

/-- A time of `n` cycles in nanoseconds, times `F_CLK_HZ` to stay whole, is at least `lo` and at most `hi`
nanoseconds even when both its edges are off by `JITTER_NS` (R103). DESIGN CHOICE: each edge by up to that much (log 19). -/
def Config.withinJitter (c : Config) (n lo hi : Nat) : Prop :=
  (lo + 2 * c.jitterNs) * c.fClkHz ≤ n * 1000000000 ∧ n * 1000000000 + 2 * c.jitterNs * c.fClkHz ≤ hi * c.fClkHz

/-- The reader's tolerance in analogue time: pulse width 20 to 100 µs, spacing 200 µs to 20 ms (R103, R192).
DESIGN CHOICE: "spacing" is taken as the end of one pulse to the start of the next (log 21). -/
def Config.readerTolerates (c : Config) : Prop :=
  c.withinJitter c.pwCycles 20000 100000 ∧ c.withinJitter c.ipiCycles 200000 20000000

end Sys2Proof
end

