-- ==== Sys2Proof/Certificates/Slice0/Obligations.lean ====
section
/-! DEFINITION. The statements for the provers, family by family. Each docstring names the rule of spec/ it is about,
and says where a clause rests on the model's own choice. -/

open Sys2Proof Sys2Proof.Machine

/-! ## Reset and the configuration -/

/-- R180: a reset edge writes the reset values of R25 whatever the state, ignores `cmd_valid` and `cmd`, and
`cmd_ready` is 0. The model's own fields move on, `resetSeen` recording the edge (log 22). -/
def Obligations.ResetEdgeWritesResetValues : Prop :=
  ∀ s : State, s.cfg.wf = true → s.sample.rst = 1 →
    s.cmdReady = 0 ∧
    step s = .next
      { st := .idle, frame := 0, len := 0, idx := 0, cnt := 0, d0 := HIGH, d1 := HIGH, oe := 1
        dbg := s.sample.debugEn, res := .noResult, lastLen := 0, done := 0, trcV := 0, trc := 0
        hOp := 0, hBits := 0, hData := 0, hPv := 0, hEven := 0, hOdd := 0
        cfg := s.cfg, host := s.advance.host, resetSeen := true, edge := s.edge + 1 }

/-- R25, R180: the state after reset holds the spec's reset values. Model's choice: `dbg = 0` (log 3), and the
configuration has the spec's default clock of 1 MHz (its pins and jitter: log 2). -/
def Obligations.ResetStateHoldsResetValues : Prop :=
  let s := State.reset
  s.st = .idle ∧ s.frame = 0 ∧ s.len = 0 ∧ s.idx = 0 ∧ s.cnt = 0 ∧ s.d0 = HIGH ∧ s.d1 = HIGH ∧ s.oe = 1 ∧
  s.dbg = 0 ∧ s.res = .noResult ∧ s.lastLen = 0 ∧ s.done = 0 ∧ s.trcV = 0 ∧ s.trc = 0 ∧ s.hOp = 0 ∧ s.hBits = 0 ∧
  s.hData = 0 ∧ s.hPv = 0 ∧ s.hEven = 0 ∧ s.hOdd = 0 ∧ s.cfg.fClkHz = 1000000 ∧ s.cfg.pwCycles = 50 ∧
  s.cfg.ipiCycles = 1000 ∧ s.cfg.cntW = 10 ∧ s.cfg.wf = true

/-- R9: whole cycle counts of at least 1, inside the tolerance, hold exactly at the positive multiples of 20 000 Hz;
then one pulse is 50 µs and one interval 1000 µs. That the tolerance's "spacing" is this interval is the model's choice
(log 21). -/
def Obligations.ClockWellFormedExactly : Prop :=
  ∀ c : Config,
    ((c.wholeCycles = true ∧ c.inTolerance = true) ↔ (0 < c.fClkHz ∧ 20000 ∣ c.fClkHz)) ∧
    (c.wholeCycles = true ↔ (0 < c.fClkHz ∧ 20000 ∣ c.fClkHz)) ∧
    (c.wholeCycles = true → c.pwCycles * 1000000 = 50 * c.fClkHz ∧ c.ipiCycles * 1000000 = 1000 * c.fClkHz)

/-- R8: `CNT_W` is the least width that holds both cycle counts. -/
def Obligations.CounterWidthIsLeast : Prop :=
  ∀ c : Config, max c.pwCycles c.ipiCycles ≤ 2 ^ c.cntW ∧
    ∀ w : Nat, max c.pwCycles c.ipiCycles ≤ 2 ^ w → c.cntW ≤ w

/-- R103: at every well-formed clock the reader's tolerance is met in analogue time exactly by a jitter bound of at
most 15 µs. The bound is the model's choice: each edge is off by up to `JITTER_NS`, so a width by up to twice that
(log 19), and "spacing" runs from the end of a pulse to the start of the next (log 21). -/
def Obligations.JitterBoundForTolerance : Prop :=
  ∀ c : Config, c.wf = true → (c.readerTolerates ↔ c.jitterNs ≤ 15000)

/-- R42: with the outputs on, the two distinct pins carry D0 and D1, and no other pin is driven. -/
def Obligations.PinsCarryTheLines : Prop :=
  ∀ s : State, s.cfg.wf = true → s.oe = 1 →
    s.pinLevel s.cfg.pinD0 = some s.d0 ∧ s.pinLevel s.cfg.pinD1 = some s.d1 ∧
    ∀ p, p ≠ s.cfg.pinD0 → p ≠ s.cfg.pinD1 → s.pinLevel p = none

/-! ## The step -/

/-- R37, R57, R166: a step is total and never faults; a configuration that R9 or U1 refuses is refused.
Before the first reset edge this rests on the model's choice to step by R37 there (log 24). -/
def Obligations.StepAlwaysAnswers : Prop :=
  ∀ s : State, (s.cfg.wf = true → ∃ t, step s = .next t ∧ t.cfg = s.cfg ∧ t.edge = s.edge + 1) ∧
    (s.cfg.wf = false → step s = .refused .configNotWellFormed)

/-- R30, R37, R56, R184: at an edge after the first reset edge, with `rst = 0`, `st = IDLE` and `cmd_valid = 1`, the step is
`exec` of the decoded word, after the step's defaults and the host's moving on. -/
def Obligations.StepRunsDecodedCommand : Prop :=
  ∀ s : State, s.cfg.wf = true → s.st = .idle → s.sample.rst = 0 → s.sample.cmdValid = 1 →
    s.resetSeen = true →
    step s = exec (decodeWord s.sample.cmd)
      { s with done := 0, trcV := 0, trc := 0, host := s.advance.host, edge := s.edge + 1 }

/-- The command placed by withFetchWord is what the next step runs, from any state (log 12). -/
def Obligations.OfferedWordRunsNext : Prop :=
  ∀ (s : State) (nbits w : Nat) (i : Instr), s.cfg.wf = true → decodeTableWord nbits w = some i →
    step (s.withFetchWord nbits w) =
      exec i { s with st := .idle, resetSeen := true, done := 0, trcV := 0, trc := 0, edge := s.edge + 1 }

/-- R37, R193, R184: an edge in IDLE without a command, or with any command before the first reset edge, changes nothing but
`done` and the trace output. That such an offer leaves just this is the model's reading of R184 (log 22).
Before the first reset edge this rests on the model's choice to step by R37 there (log 24). -/
def Obligations.IdleWaits : Prop :=
  ∀ s : State, s.cfg.wf = true → s.st = .idle → s.sample.rst = 0 →
    (s.sample.cmdValid = 0 ∨ s.resetSeen = false) →
    step s = .next { s with done := 0, trcV := 0, trc := 0, host := s.advance.host, edge := s.edge + 1 }

/-- R92: the PULSE arm, in the states R40 admits, where the counter does not wrap.
Before the first reset edge this rests on the model's choice to step by R37 there (log 24). -/
def Obligations.PulseArmOfStep : Prop :=
  ∀ s : State, s.cfg.wf = true → s.st = .pulse → s.sample.rst = 0 → s.cnt < s.cfg.pwCycles →
    s.cfg.pwCycles ≤ 2 ^ s.cfg.cntW ∧
    (s.cnt = s.cfg.pwCycles - 1 → step s = .next
      { s with d0 := HIGH, d1 := HIGH, cnt := 0, st := .gap
               done := 0, trcV := 0, trc := 0, host := s.advance.host, edge := s.edge + 1 }) ∧
    (s.cnt ≠ s.cfg.pwCycles - 1 → step s = .next
      { s with cnt := s.cnt + 1
               done := 0, trcV := 0, trc := 0, host := s.advance.host, edge := s.edge + 1 })

/-- R93, R94: the GAP arm, in the states R40 admits: it waits, starts the bit `frame[idx - 1]`, or completes the command
with RESULT OK, `done`, the trace record when `dbg = 1`, and the credential cleared.
Before the first reset edge this rests on the model's choice to step by R37 there (log 24). -/
def Obligations.GapArmOfStep : Prop :=
  ∀ s : State, s.cfg.wf = true → s.st = .gap → s.sample.rst = 0 → s.cnt < s.cfg.ipiCycles → s.idx.toNat ≤ 40 →
    (s.cnt ≠ s.cfg.ipiCycles - 1 → step s = .next
      { s with cnt := s.cnt + 1
               done := 0, trcV := 0, trc := 0, host := s.advance.host, edge := s.edge + 1 }) ∧
    (s.cnt = s.cfg.ipiCycles - 1 → s.idx ≠ 0 → step s = .next
      { s with idx := s.idx - 1, cnt := 0, st := .pulse
               d0 := bif s.frame.getLsbD (s.idx.toNat - 1) then s.d0 else LOW
               d1 := bif s.frame.getLsbD (s.idx.toNat - 1) then LOW else s.d1
               done := 0, trcV := 0, trc := 0, host := s.advance.host, edge := s.edge + 1 }) ∧
    (s.cnt = s.cfg.ipiCycles - 1 → s.idx = 0 → step s = .next
      { s with st := .idle, cnt := 0, res := .ok, done := 1
               trcV := if s.dbg = 1 then 1 else 0
               trc := if s.dbg = 1 then
                   traceRecord .ok s.hOp s.hBits s.hPv s.hEven s.hOdd s.len s.frame s.hData else 0
               frame := 0, len := 0, hOp := 0, hBits := 0, hData := 0, hPv := 0, hEven := 0, hOdd := 0
               host := s.advance.host, edge := s.edge + 1 })

/-- R27 with the defaults of R37: recovery from FSM code 3. That `done`, `trc_v` and `trc` read 0 after it is the model's
reading where R27 and R37 differ (log 8).
Before the first reset edge this rests on the model's choice to step by R37 there (log 24). -/
def Obligations.Code3Recovers : Prop :=
  ∀ s : State, s.cfg.wf = true → s.st = .code3 → s.sample.rst = 0 →
    step s = .next
      { s with st := .idle, d0 := HIGH, d1 := HIGH, cnt := 0
               done := 0, trcV := 0, trc := 0, host := s.advance.host, edge := s.edge + 1 }

/-- R56, R61, R102, R172: while the block is busy no input but `rst` has an effect; `debug_en` and the
level of `cmd` without `cmd_valid` have none in IDLE either. That none has before the first reset edge is the model's
reading of R184, which does not say what an offer leaves there (log 22).
Before the first reset edge this rests on the model's choice to step by R37 there (log 24). -/
def Obligations.UnsampledInputsHaveNoEffect : Prop :=
  ∀ (s : State) (a b : Inputs), a.rst = 0 → b.rst = 0 →
    (s.st ≠ .idle → clockEdge a s = clockEdge b s) ∧
    (s.resetSeen = false → clockEdge a s = clockEdge b s) ∧
    (a.cmdValid = 0 → b.cmdValid = 0 → clockEdge a s = clockEdge b s) ∧
    (a.cmdValid = b.cmdValid → a.cmd = b.cmd → clockEdge a s = clockEdge b s)

/-- R120: an edge that accepts a valid command, at the level of the step: every register, the ones left alone
included. In IDLE both lines are HIGH (R39), so exactly the line of `F[L-1]` goes LOW. -/
def Obligations.AcceptingEdge : Prop :=
  ∀ (s : State) (op : BitVec 4) (fmt : Format) (data : Credential),
    s.cfg.wf = true → s.acceptsAt op fmt data →
    let b := buildFrame data fmt
    step s = .next
      { s with frame := b.frame, len := b.len, idx := b.len - 1, cnt := 0, st := .pulse
               d0 := bif b.frame.getLsbD (formatBits fmt - 1) then s.d0 else LOW
               d1 := bif b.frame.getLsbD (formatBits fmt - 1) then LOW else s.d1
               res := .noResult, lastLen := b.len
               hOp := op, hBits := formatCode fmt, hData := data, hPv := b.pv, hEven := b.even, hOdd := b.odd
               done := 0, trcV := 0, trc := 0, host := s.advance.host, edge := s.edge + 1 }

/-- R121: an edge that rejects a command: RESULT, LAST_LEN, `done` and, when `dbg = 1`, the trace record; nothing of
the transmission is written. -/
def Obligations.RejectingEdge : Prop :=
  ∀ (s : State) (code : RejectCode), s.cfg.wf = true → s.rejectsAt code →
    step s = .next
      { s with res := rejectResult code, lastLen := 0, done := 1
               trcV := if s.dbg = 1 then 1 else 0
               trc := if s.dbg = 1 then
                   traceRecord (rejectResult code) (s.sample.cmd.extractLsb' 92 4) (s.sample.cmd.extractLsb' 84 8)
                     0 0 0 0 0 (s.sample.cmd.extractLsb' 0 64) else 0
               host := s.advance.host, edge := s.edge + 1 }

/-! ## Encoding -/

/-- R81: the spec's eight example words decode to the commands they stand for, and are their encodings. -/
def Obligations.ExampleWordsDecode : Prop :=
  let z : Header := { bits := 0, wfc := 0, rsv := 0 }
  ∀ p ∈ [ (Instr.send26 z 0 123#8 0 52719#16, 0x200000000000007B0000CDEF#96),
          (Instr.send { z with bits := 26, wfc := 1 } 0 0x007BCDEF, 0x11A8000000000000007BCDEF#96),
          (Instr.send { z with bits := 26 } 0 0x007BCDEF, 0x11A0000000000000007BCDEF#96),
          (Instr.send34 z 0 14507#16 0 52719#16, 0x30000000000038AB0000CDEF#96),
          (Instr.send { z with bits := 34, wfc := 1 } 0 0x38ABCDEF, 0x122800000000000038ABCDEF#96),
          (Instr.sendEm4100 z 0 0x01#8 0x12345678#32, 0x400000000000000112345678#96),
          (Instr.send { z with bits := 40 } 0x01 0x12345678, 0x128000000000000112345678#96),
          (Instr.send { z with bits := 32 } 0 0x007BCDEF, 0x1200000000000000007BCDEF#96) ],
    decodeWord p.2 = p.1 ∧ encode p.1 = p.2

/-- R70, R71, R75: decoding the encoding of any command gives it back, with every field at every value: no bit of the
word is dropped. -/
def Obligations.DecodeOfEncode : Prop := ∀ i : Instr, decodeWord (encode i) = i

/-- R70, R71: every 96-bit word is the encoding of the command it decodes to. That no bit is lost and no two words share
a command is the model's choice: a constructor keeps the bits its command ignores (log 15), which the spec's `Decode` drops. -/
def Obligations.EncodeOfDecode : Prop := ∀ w : CmdWord, encode (decodeWord w) = w

/-- The opcode table: every word belongs to exactly one row, the one of the command it decodes to. -/
def Obligations.OpcodeRowsPartitionWords : Prop :=
  ∀ (w : CmdWord) (k : Nat) (r : OpcodeRow), opcodeTable[k]? = some r →
    (r.covers w = true ↔ (decodeWord w).tableRow = k)

/-- R76: what the block does with a word is what the spec's `Decode` verdict says, the meanings and the verdict being
two texts. -/
def Obligations.VerdictDecidesExecution : Prop :=
  ∀ (w : CmdWord) (s : State), exec (decodeWord w) s =
    match classify w with
    | .accept op fmt data => .next (s.accept op fmt data)
    | .reject code => .next (s.raise code (w.extractLsb' 92 4) (w.extractLsb' 84 8) (w.extractLsb' 0 64))

/-- R77, R161, R162, R165: ERR_OP exactly for OP 0 and 5 to 15 whatever BITS holds, ERR_FORMAT exactly for SEND with
another BITS, and every other word is accepted. -/
def Obligations.RejectionClasses : Prop :=
  ∀ w : CmdWord,
    let op := (w.extractLsb' 92 4).toNat
    let bits := (w.extractLsb' 84 8).toNat
    (classify w = .reject .errOp ↔ (op = 0 ∨ 5 ≤ op)) ∧
    (classify w = .reject .errFormat ↔ (op = 1 ∧ bits ≠ 26 ∧ bits ≠ 34 ∧ bits ≠ 40)) ∧
    ((∃ o fmt data, classify w = .accept o fmt data) ↔
      ((op = 1 ∧ (bits = 26 ∨ bits = 34 ∨ bits = 40)) ∨ (2 ≤ op ∧ op ≤ 4)))

/-- R73, R74, R77: WFC and RSV change nothing for any OP, BITS and the unused operand bits nothing for the convenience
commands. -/
def Obligations.IgnoredBitsChangeNothing : Prop :=
  ∀ s : State,
    (∀ v w : CmdWord, v.extractLsb' 84 12 = w.extractLsb' 84 12 → v.extractLsb' 0 64 = w.extractLsb' 0 64 →
      exec (decodeWord v) s = exec (decodeWord w) s) ∧
    (∀ h h' u u' fc v v' cn, exec (.send26 h u fc v cn) s = exec (.send26 h' u' fc v' cn) s) ∧
    (∀ h h' u u' fc v v' cn, exec (.send34 h u fc v cn) s = exec (.send34 h' u' fc v' cn) s) ∧
    (∀ h h' u u' version cardId, exec (.sendEm4100 h u version cardId) s = exec (.sendEm4100 h' u' version cardId) s)

/-- R74, R79: the assembler's commands are well formed with RSV 0 in the word, and every well-formed command is formed by
some line; it refuses exactly the operands that do not
fit; and an illegal `bits` below 256 is not refused. -/
def Obligations.AssemblerFormsLegalWords : Prop :=
  (∀ l i, assembleCommand l = .ok (some i) → i.wf = true ∧ cmdRsv (encode i) = 0) ∧
  (∀ i : Instr, i.wf = true → ∃ l, assembleCommand l = .ok (some i)) ∧
  (∀ data bits wfc, assembleCommand (.send data bits wfc) = .error .operandTooWide ↔
    ¬ (data < 2 ^ 64 ∧ bits < 256 ∧ wfc < 2)) ∧
  (∀ fc cn, assembleCommand (.send26 fc cn) = .error .operandTooWide ↔ ¬ (fc < 2 ^ 8 ∧ cn < 2 ^ 16)) ∧
  (∀ fc cn, assembleCommand (.send34 fc cn) = .error .operandTooWide ↔ ¬ (fc < 2 ^ 16 ∧ cn < 2 ^ 16)) ∧
  (∀ v c, assembleCommand (.sendEm4100 v c) = .error .operandTooWide ↔ ¬ (v < 2 ^ 8 ∧ c < 2 ^ 32))

/-- R75, R79: every assembled send keeps its operands. SEND puts `data[63:32]` in OPA and `data[31:0]` in OPB, so that
`cmd[63:0]` is the number written; the convenience commands' operands stand in the bits of OPA and OPB that R75 names,
with BITS, WFC and RSV 0. The lines of R80 keep their number. -/
def Obligations.AssembledSendKeepsData : Prop :=
  (∀ data bits wfc : Nat, data < 2 ^ 64 → bits < 256 → wfc < 2 →
    ∃ w, assembleLine (.send data bits wfc) = .ok (.command w) ∧ (w.extractLsb' 0 64).toNat = data ∧
      (cmdBits w).toNat = bits ∧ (cmdWfc w).toNat = wfc ∧ cmdOp w = 1 ∧ cmdRsv w = 0) ∧
  (∀ fc cn : Nat, fc < 2 ^ 8 → cn < 2 ^ 16 →
    ∃ w, assembleLine (.send26 fc cn) = .ok (.command w) ∧ (cmdOpa w).toNat = fc ∧ (cmdOpb w).toNat = cn ∧
      cmdBits w = 0 ∧ cmdWfc w = 0 ∧ cmdOp w = 2 ∧ cmdRsv w = 0) ∧
  (∀ fc cn : Nat, fc < 2 ^ 16 → cn < 2 ^ 16 →
    ∃ w, assembleLine (.send34 fc cn) = .ok (.command w) ∧ (cmdOpa w).toNat = fc ∧ (cmdOpb w).toNat = cn ∧
      cmdBits w = 0 ∧ cmdWfc w = 0 ∧ cmdOp w = 3 ∧ cmdRsv w = 0) ∧
  (∀ version cardId : Nat, version < 2 ^ 8 → cardId < 2 ^ 32 →
    ∃ w, assembleLine (.sendEm4100 version cardId) = .ok (.command w) ∧ (cmdOpa w).toNat = version ∧
      (cmdOpb w).toNat = cardId ∧ cmdBits w = 0 ∧ cmdWfc w = 0 ∧ cmdOp w = 4 ∧ cmdRsv w = 0) ∧
  (∀ n : Nat, n < 2 ^ 96 → ∃ w, assembleLine (.cmd n) = .ok (.command w) ∧ w.toNat = n) ∧
  (∀ n : Nat, n < 2 → ∃ d, assembleLine (.reset n) = .ok (.reset d) ∧ d.toNat = n) ∧
  (∀ n : Nat, assembleLine (.delay n) = .ok (.delay n)) ∧
  assembleLine .waitDone = .ok .waitDone

/-! ## The commands -/

/-- R122, R120: SEND with BITS 26, 34 or 40 is accepted, from any state: every register it writes and the ones it
leaves alone. -/
def Obligations.SendAccepted : Prop :=
  ∀ (h : Header) (opa opb : BitVec 32) (fmt : Format) (s : State), h.bits.toNat = formatBits fmt →
    let b := buildFrame (opa ++ opb) fmt
    exec (.send h opa opb) s = .next
      { s with frame := b.frame, len := b.len, idx := b.len - 1, cnt := 0, st := .pulse
               d0 := bif b.frame.getLsbD (formatBits fmt - 1) then s.d0 else LOW
               d1 := bif b.frame.getLsbD (formatBits fmt - 1) then LOW else s.d1
               res := .noResult, lastLen := b.len
               hOp := 1, hBits := h.bits, hData := opa ++ opb, hPv := b.pv, hEven := b.even, hOdd := b.odd }

/-- R161, R121: SEND with any other BITS is rejected with ERR_FORMAT and starts no pulse. -/
def Obligations.SendRejected : Prop :=
  ∀ (h : Header) (opa opb : BitVec 32) (s : State),
    h.bits.toNat ≠ 26 → h.bits.toNat ≠ 34 → h.bits.toNat ≠ 40 →
    exec (.send h opa opb) s = .next
      { s with res := .errFormat, lastLen := 0, done := 1
               trcV := if s.dbg = 1 then 1 else s.trcV
               trc := if s.dbg = 1 then traceRecord .errFormat 1 h.bits 0 0 0 0 0 (opa ++ opb) else s.trc }

/-- R140: SEND26 sends `{e, fc, cn, o}`, with `e` the even parity of `fc, cn[15:12]` and `o` the odd parity of `cn[11:0]`. -/
def Obligations.Send26Accepted : Prop :=
  ∀ (h : Header) (u : BitVec 24) (fc : BitVec 8) (v cn : BitVec 16) (s : State),
    let e := xorReduce (fc ++ cn.extractLsb' 12 4)
    let o := ~~~ xorReduce (cn.extractLsb' 0 12)
    exec (.send26 h u fc v cn) s = .next
      { s with frame := (e ++ fc ++ cn ++ o).setWidth 40, len := 26, idx := 25, cnt := 0, st := .pulse
               d0 := if e = 1 then s.d0 else LOW
               d1 := if e = 1 then LOW else s.d1
               res := .noResult, lastLen := 26
               hOp := 2, hBits := 26, hData := (fc ++ cn).setWidth 64, hPv := 1, hEven := e, hOdd := o }

/-- R141: SEND34 sends `{e, fc, cn, o}`, with `e` the even parity of `fc` and `o` the odd parity of `cn`. -/
def Obligations.Send34Accepted : Prop :=
  ∀ (h : Header) (u fc v cn : BitVec 16) (s : State),
    let e := xorReduce fc
    let o := ~~~ xorReduce cn
    exec (.send34 h u fc v cn) s = .next
      { s with frame := (e ++ fc ++ cn ++ o).setWidth 40, len := 34, idx := 33, cnt := 0, st := .pulse
               d0 := if e = 1 then s.d0 else LOW
               d1 := if e = 1 then LOW else s.d1
               res := .noResult, lastLen := 34
               hOp := 3, hBits := 34, hData := (fc ++ cn).setWidth 64, hPv := 1, hEven := e, hOdd := o }

/-- R142: SENDEM4100 sends `{ver, id}`, 40 bits, no parity. -/
def Obligations.SendEm4100Accepted : Prop :=
  ∀ (h : Header) (u : BitVec 24) (version : BitVec 8) (cardId : BitVec 32) (s : State),
    exec (.sendEm4100 h u version cardId) s = .next
      { s with frame := version ++ cardId, len := 40, idx := 39, cnt := 0, st := .pulse
               d0 := bif version.getLsbD 7 then s.d0 else LOW
               d1 := bif version.getLsbD 7 then LOW else s.d1
               res := .noResult, lastLen := 40
               hOp := 4, hBits := 40, hData := (version ++ cardId).setWidth 64, hPv := 0, hEven := 0, hOdd := 0 }

/-- R162: every reserved OP is rejected with ERR_OP and records its OP, the raw BITS and `cmd[63:0]` when `dbg = 1`. -/
def Obligations.ReservedRejected : Prop :=
  ∀ (h : Header) (opa opb : BitVec 32) (low1 : BitVec 1) (low3 : BitVec 3) (s : State),
    let rejected (op : Nat) : State :=
      { s with res := .errOp, lastLen := 0, done := 1
               trcV := if s.dbg = 1 then 1 else s.trcV
               trc := if s.dbg = 1 then traceRecord .errOp (BitVec.ofNat 4 op) h.bits 0 0 0 0 0 (opa ++ opb) else s.trc }
    exec (.reserved0 h opa opb) s = .next (rejected 0) ∧
    exec (.reserved5 h opa opb) s = .next (rejected 5) ∧
    exec (.reserved6to7 low1 h opa opb) s = .next (rejected (6 + low1.toNat)) ∧
    exec (.reserved8toF low3 h opa opb) s = .next (rejected (8 + low3.toNat))

/-- The frame of every command: an accepted one leaves `oe`, `dbg`, `done` and the trace output, a rejected one everything of
the transmission and both lines, and each the configuration and the host (R120, R121). -/
def Obligations.CommandFrames : Prop :=
  ∀ (i : Instr) (s t : State), exec i s = .next t →
    t.oe = s.oe ∧ t.dbg = s.dbg ∧ t.cfg = s.cfg ∧ t.host = s.host ∧ t.resetSeen = s.resetSeen ∧ t.edge = s.edge ∧
    ((∃ op fmt data, classify (encode i) = .accept op fmt data) →
      t.done = s.done ∧ t.trcV = s.trcV ∧ t.trc = s.trc) ∧
    ((∃ code, classify (encode i) = .reject code) →
      t.st = s.st ∧ t.d0 = s.d0 ∧ t.d1 = s.d1 ∧ t.frame = s.frame ∧ t.len = s.len ∧ t.idx = s.idx ∧ t.cnt = s.cnt ∧
      t.hOp = s.hOp ∧ t.hBits = s.hBits ∧ t.hData = s.hData ∧ t.hPv = s.hPv ∧ t.hEven = s.hEven ∧ t.hOdd = s.hOdd ∧
      (s.dbg = 0 → t.trcV = s.trcV ∧ t.trc = s.trc))

/-- R143, R144, R145: a convenience command and SEND with the packed `data` and the format lead to states that differ in
`h_op` alone, for either WFC. -/
def Obligations.ConvenienceEqualsSend : Prop :=
  ∀ (h g : Header) (s : State),
    (∀ (u : BitVec 24) (fc : BitVec 8) (v cn : BitVec 16), g.bits = 26 →
      ∃ t, exec (.send26 h u fc v cn) s = .next t ∧
        exec (.send g 0 (BitVec.ofNat 32 (fc.toNat <<< 16 ||| cn.toNat))) s = .next { t with hOp := 1 }) ∧
    (∀ (u fc v cn : BitVec 16), g.bits = 34 →
      ∃ t, exec (.send34 h u fc v cn) s = .next t ∧
        exec (.send g 0 (BitVec.ofNat 32 (fc.toNat <<< 16 ||| cn.toNat))) s = .next { t with hOp := 1 }) ∧
    (∀ (u : BitVec 24) (version : BitVec 8) (cardId : BitVec 32), g.bits = 40 →
      ∃ t, exec (.sendEm4100 h u version cardId) s = .next t ∧
        exec (.send g (BitVec.ofNat 32 version.toNat) cardId) s = .next { t with hOp := 1 })

/-! ## The parity calculator and the frame -/

/-- R112: `e` is 1 exactly when the upper half has an odd number of set bits, so the half with `e` has an even number. -/
def Obligations.EvenParityBit : Prop :=
  ∀ (n : Nat) (d : BitVec n),
    (evenParity d = 1 ↔ popcount (upperHalf d) % 2 = 1) ∧
    (popcount (upperHalf d) + (evenParity d).toNat) % 2 = 0

/-- R113: `o` is 1 exactly when the lower half has an even number of set bits, so the half with `o` has an odd number. -/
def Obligations.OddParityBit : Prop :=
  ∀ (n : Nat) (d : BitVec n),
    (oddParity d = 1 ↔ popcount (lowerHalf d) % 2 = 0) ∧
    (popcount (lowerHalf d) + (oddParity d).toNat) % 2 = 1

/-- R111: the upper half is the `ceil(n/2)` most significant bits, the lower half the rest, and together they are
the field, each bit counted once; `popcount` is the number of set bits, and `^v` its parity (R11). -/
def Obligations.HalvesSplitTheField : Prop :=
  ∀ (n : Nat) (d : BitVec n),
    upperSize n = (n + 1) / 2 ∧
    (∀ i < upperSize n, (upperHalf d).getLsbD i = d.getLsbD (n - upperSize n + i)) ∧
    (∀ i < n - upperSize n, (lowerHalf d).getLsbD i = d.getLsbD i) ∧
    popcount (upperHalf d) + popcount (lowerHalf d) = popcount d ∧
    popcount d = ((List.range n).filter (fun i => d.getLsbD i)).length ∧
    (xorReduce d = 1 ↔ popcount d % 2 = 1)

/-- R116: the frame of formats 26 and 34 is the even-parity bit, the data bits, the odd-parity bit, and 0 above. -/
def Obligations.ParityFrameLayout : Prop :=
  ∀ (data : Credential) (fmt : Format) (n : Nat), (fmt = .f26 ∧ n = 24 ∨ fmt = .f34 ∧ n = 32) →
    let b := buildFrame data fmt
    let d := data.extractLsb' 0 n
    b.len.toNat = n + 2 ∧ b.pv = 1 ∧ b.even = evenParity d ∧ b.odd = oddParity d ∧
    BitVec.ofBool (b.frame.getLsbD (n + 1)) = evenParity d ∧
    (∀ i < n, b.frame.getLsbD (i + 1) = data.getLsbD i) ∧
    BitVec.ofBool (b.frame.getLsbD 0) = oddParity d ∧
    (∀ i, n + 2 ≤ i → b.frame.getLsbD i = false)

/-- R117: the frame of format 40 is the low 40 bits of `data`, without parity bits. -/
def Obligations.PlainFrameLayout : Prop :=
  ∀ data : Credential,
    buildFrame data .f40 = { frame := data.extractLsb' 0 40, len := 40, pv := 0, even := 0, odd := 0 }

/-- R118: `data` above the field is neither sent nor in the parity: values that agree on the field give one frame. -/
def Obligations.DataAboveFieldIgnored : Prop :=
  ∀ x y : Credential,
    (x.extractLsb' 0 24 = y.extractLsb' 0 24 → buildFrame x .f26 = buildFrame y .f26) ∧
    (x.extractLsb' 0 32 = y.extractLsb' 0 32 → buildFrame x .f34 = buildFrame y .f34) ∧
    (x.extractLsb' 0 40 = y.extractLsb' 0 40 → buildFrame x .f40 = buildFrame y .f40)

/-- R124: every 26- and 34-bit frame passes a receiver's two parity counts. -/
def Obligations.ReceiverParityHolds : Prop :=
  ∀ data : Credential,
    (let f := (buildFrame data .f26).frame
     popcount (f.extractLsb' 13 13) % 2 = 0 ∧ popcount (f.extractLsb' 0 13) % 2 = 1) ∧
    (let f := (buildFrame data .f34).frame
     popcount (f.extractLsb' 17 17) % 2 = 0 ∧ popcount (f.extractLsb' 0 17) % 2 = 1)

/-- R125: stripping the parity bits gives the data field back, and the whole `data` exactly when it fits the field. -/
def Obligations.StrippedFrameIsData : Prop :=
  ∀ data : Credential,
    (buildFrame data .f26).frame.extractLsb' 1 24 = data.extractLsb' 0 24 ∧
    (((buildFrame data .f26).frame.extractLsb' 1 24).toNat = data.toNat ↔ data.toNat < 2 ^ 24) ∧
    (buildFrame data .f34).frame.extractLsb' 1 32 = data.extractLsb' 0 32 ∧
    (((buildFrame data .f34).frame.extractLsb' 1 32).toNat = data.toNat ↔ data.toNat < 2 ^ 32)

/-! ## Status, trace and who writes what -/

/-- R28, R29: the fields of `status`, and the four RESULT codes. BUSY in FSM code 3 follows R28's `st != IDLE` (log 9). -/
def Obligations.StatusFields : Prop :=
  ∀ s : State,
    ((statusWord s).extractLsb' 0 1 = 1 ↔ s.st ≠ .idle) ∧
    (statusWord s).extractLsb' 1 2 = resultBits s.res ∧
    (resultBits .noResult = 0b00#2 ∧ resultBits .ok = 0b01#2 ∧ resultBits .errFormat = 0b10#2 ∧
      resultBits .errOp = 0b11#2) ∧
    (statusWord s).extractLsb' 3 6 = s.lastLen ∧
    (statusWord s).extractLsb' 9 1 = s.dbg ∧
    (statusWord s).extractLsb' 10 6 = 0

/-- R24, R30: `cmd_ready` is 1 exactly when `st = IDLE` and `rst = 0`, and every other output port shows the register R24
names, `status` being the word of R28. BUSY in FSM code 3 follows R28 (log 9).
That `cmd_ready` keeps this equation before the first reset edge is the model's reading (log 22). -/
def Obligations.OutputPortsShowRegisters : Prop :=
  ∀ s : State,
    (s.outputs.cmdReady = 1 ↔ (s.st = .idle ∧ s.sample.rst = 0)) ∧
    s.outputs.cmdReady = s.cmdReady ∧
    s.outputs.d0 = s.d0 ∧ s.outputs.d1 = s.d1 ∧ s.outputs.oe = s.oe ∧
    s.outputs.status = statusWord s ∧ (s.outputs.status.extractLsb' 0 1 = 1 ↔ s.st ≠ .idle) ∧
    s.outputs.done = s.done ∧ s.outputs.traceValid = s.trcV ∧ s.outputs.trace = s.trc

/-- R35: the fields of a trace record. -/
def Obligations.TraceRecordFields : Prop :=
  ∀ (kind : ResultCode) (op : BitVec 4) (bits : BitVec 8) (pv even odd : Bit) (len : BitVec 6) (frame : FrameBits)
    (data : Credential),
    let r := traceRecord kind op bits pv even odd len frame data
    r.extractLsb' 126 2 = resultBits kind ∧ r.extractLsb' 122 4 = op ∧ r.extractLsb' 114 8 = bits ∧
    r.extractLsb' 113 1 = pv ∧ r.extractLsb' 112 1 = even ∧ r.extractLsb' 111 1 = odd ∧ r.extractLsb' 105 6 = len ∧
    r.extractLsb' 65 40 = frame ∧ r.extractLsb' 64 1 = 0 ∧ r.extractLsb' 0 64 = data

/-- R29: `res` is written by reset, acceptance, completion and rejection, and by nothing else.
Before the first reset edge this rests on the model's choice to step by R37 there (log 24). -/
def Obligations.ResultWrittenOnlyBy : Prop :=
  ∀ s : State, s.cfg.wf = true → ∃ t, step s = .next t ∧
    (s.sample.rst = 1 → t.res = .noResult) ∧
    (∀ op fmt data, s.acceptsAt op fmt data → t.res = .noResult) ∧
    (s.completesAt → t.res = .ok) ∧
    (s.rejectsAt .errFormat → t.res = .errFormat) ∧
    (s.rejectsAt .errOp → t.res = .errOp) ∧
    (s.sample.rst ≠ 1 → ¬ s.completesAt → ¬ s.offered → t.res = s.res)

/-- R33: `last_len` is written by acceptance, rejection and reset, and by nothing else.
Before the first reset edge this rests on the model's choice to step by R37 there (log 24). -/
def Obligations.LastLenWrittenOnlyBy : Prop :=
  ∀ s : State, s.cfg.wf = true → ∃ t, step s = .next t ∧
    (∀ op fmt data, s.acceptsAt op fmt data → t.lastLen.toNat = formatBits fmt) ∧
    (∀ code, s.rejectsAt code → t.lastLen = 0) ∧
    (s.sample.rst = 1 → t.lastLen = 0) ∧
    (s.completesAt → t.lastLen = s.lastLen) ∧
    (s.sample.rst ≠ 1 → ¬ s.offered → t.lastLen = s.lastLen)

/-- R32: `done` is 1 in the cycle after an edge that completes or rejects a command, and 0 in every other cycle.
Before the first reset edge this rests on the model's choice to step by R37 there (log 24), and that FSM code 3's recovery
clears `done` is its reading where R27 and R37 differ (log 8). -/
def Obligations.DoneExactlyAfterFinish : Prop :=
  ∀ s : State, s.cfg.wf = true → ∃ t, step s = .next t ∧
    (t.done = 1 ↔ (s.completesAt ∨ ∃ code, s.rejectsAt code))

/-- R169: a trace record appears in exactly the cycles after a finishing edge with `dbg = 1`; otherwise the
trace output is 0.
Before the first reset edge this rests on the model's choice to step by R37 there (log 24), and that FSM code 3's recovery
clears the trace output is its reading where R27 and R37 differ (log 8). -/
def Obligations.TraceExactlyAfterFinish : Prop :=
  ∀ s : State, s.cfg.wf = true → ∃ t, step s = .next t ∧
    (t.trcV = 1 ↔ (s.dbg = 1 ∧ (s.completesAt ∨ ∃ code, s.rejectsAt code))) ∧
    (t.trcV = 0 → t.trc = 0)

/-- R34, R44, R36, R21: who writes `dbg`, `oe`, the hold registers and `idx`; and the model's record of a reset edge
(log 22).
Before the first reset edge this rests on the model's choice to step by R37 there (log 24). -/
def Obligations.OtherRegistersWrittenOnlyBy : Prop :=
  ∀ s : State, s.cfg.wf = true → ∃ t, step s = .next t ∧
    (s.sample.rst = 1 → t.dbg = s.sample.debugEn) ∧
    (s.sample.rst = 1 → t.resetSeen = true) ∧
    (s.sample.rst = 0 → t.dbg = s.dbg ∧ t.oe = s.oe ∧ t.resetSeen = s.resetSeen) ∧
    (s.sample.rst = 0 → ¬ s.completesAt → (∀ op fmt data, ¬ s.acceptsAt op fmt data) →
      t.hOp = s.hOp ∧ t.hBits = s.hBits ∧ t.hData = s.hData ∧ t.hPv = s.hPv ∧ t.hEven = s.hEven ∧ t.hOdd = s.hOdd ∧
      t.frame = s.frame ∧ t.len = s.len ∧ (t.idx = s.idx ∨ (s.idx ≠ 0 ∧ t.idx = s.idx - 1))) ∧
    (s.completesAt → t.hOp = 0 ∧ t.hBits = 0 ∧ t.hData = 0 ∧ t.hPv = 0 ∧ t.hEven = 0 ∧ t.hOdd = 0 ∧
      t.frame = 0 ∧ t.len = 0)

/-! ## Invariants -/

/-- R38 to R40, R180: the state after a reset edge meets the invariant, whatever the sampled `debug_en`, the configuration,
the host and the edge number, and so does every step from any state whose sampled `rst` is 1. State.reset is one such
state (log 2, log 3). -/
def Obligations.ResetStateMeetsInvariant : Prop :=
  State.reset.Inv ∧
  (∀ (debugEn : Bit) (cfg : Config) (host : List HostAct) (edge : Nat), (State.afterReset debugEn cfg host edge).Inv) ∧
  ∀ s : State, s.cfg.wf = true → s.sample.rst = 1 → ∃ t, step s = .next t ∧ t.dbg = s.sample.debugEn ∧ t.Inv

/-- R38 to R40 and what R26, R29, R32, R33, R36 and R169 add: every step keeps the invariant. -/
def Obligations.StepKeepsInvariant : Prop := ∀ s t : State, s.Inv → step s = .next t → t.Inv

/-- R38, R39, R40, R44: in every cycle after a reset edge, from whatever state and whatever the host does. -/
def Obligations.LinesSafeAfterReset : Prop :=
  ∀ (s : State) (n : Nat), s.cfg.wf = true → s.sample.rst = 1 →
    ∃ t, runEdges (n + 1) s = .next t ∧
      ¬ (t.d0 = LOW ∧ t.d1 = LOW) ∧ ((t.d0 = LOW ∨ t.d1 = LOW) → t.st = .pulse) ∧
      ((t.st = .idle ∨ t.st = .gap) → t.d0 = HIGH ∧ t.d1 = HIGH ∧ t.oe = 1) ∧
      (t.st = .pulse → t.cnt < t.cfg.pwCycles) ∧ (t.st = .gap → t.cnt < t.cfg.ipiCycles) ∧
      ((t.st = .pulse ∨ t.st = .gap) → (t.len = 26 ∨ t.len = 34 ∨ t.len = 40) ∧ t.idx < t.len) ∧
      (t.st = .idle → t.cnt = 0) ∧ t.oe = 1 ∧ t.st ≠ .code3 ∧ t.resetSeen = true

/-! ## The wire -/

/-- R95: the waveform of one command of `L` bits, accepted after a reset edge (R184), with no reset until it completes:
bit `k` is a pulse of `PW_CYCLES` on the line of `F[L-1-k]`, then `IPI_CYCLES` with both lines HIGH, BUSY throughout;
after `L * P` cycles the block is IDLE with `done` and RESULT OK. -/
def Obligations.WaveformOfCommand : Prop :=
  ∀ (s : State) (a : Inputs) (ins : List Inputs) (op : BitVec 4) (fmt : Format) (data : Credential),
    s.cfg.wf = true → s.st = .idle → s.resetSeen = true → s.linesHigh → s.drivenBy (a :: ins) →
    a.rst = 0 → a.cmdValid = 1 → classify a.cmd = .accept op fmt data →
    ins.length = formatBits fmt * s.cfg.period → (∀ i ∈ ins, i.rst = 0) →
    (∀ k < formatBits fmt, ∀ j < s.cfg.period, ∃ t,
      runEdges (1 + k * s.cfg.period + j) s = .next t ∧ busy t.st = 1 ∧
      (j < s.cfg.pwCycles → t.pulses (BitVec.ofBool ((buildFrame data fmt).frame.getLsbD (formatBits fmt - 1 - k)))) ∧
      (s.cfg.pwCycles ≤ j → t.linesHigh)) ∧
    ∃ t, runEdges (1 + formatBits fmt * s.cfg.period) s = .next t ∧
      t.st = .idle ∧ t.done = 1 ∧ t.res = .ok ∧ t.linesHigh

/-- R95, R99, R54, R123: under the same premises a reader of the two lines sees exactly the bits of the frame, most
significant first, and `2 * L` level changes. -/
def Obligations.ReaderSeesTheFrame : Prop :=
  ∀ (s : State) (a : Inputs) (ins : List Inputs) (op : BitVec 4) (fmt : Format) (data : Credential),
    s.cfg.wf = true → s.st = .idle → s.resetSeen = true → s.linesHigh → s.drivenBy (a :: ins) →
    a.rst = 0 → a.cmdValid = 1 → classify a.cmd = .accept op fmt data →
    ins.length = formatBits fmt * s.cfg.period → (∀ i ∈ ins, i.rst = 0) →
    let samples := lineSamples s (1 + formatBits fmt * s.cfg.period)
    readerBits (s.d0, s.d1) samples = sendingOrder (buildFrame data fmt).frame (formatBits fmt) ∧
    lineTransitions (s.d0, s.d1) samples = 2 * formatBits fmt

/-- R97, R98, R31: a valid command keeps the block busy for exactly `L * P` cycles, which is `L * 1050` µs at every
well-formed clock, without `done` before; and the lines stay HIGH in the last `IPI_CYCLES` of them and one more
cycle, before which no command can be accepted. -/
def Obligations.BusyExactlyTheDuration : Prop :=
  ∀ (s : State) (a : Inputs) (ins : List Inputs) (op : BitVec 4) (fmt : Format) (data : Credential),
    s.cfg.wf = true → s.st = .idle → s.resetSeen = true → s.linesHigh → s.drivenBy (a :: ins) →
    a.rst = 0 → a.cmdValid = 1 → classify a.cmd = .accept op fmt data →
    ins.length = formatBits fmt * s.cfg.period → (∀ i ∈ ins, i.rst = 0) →
    formatBits fmt * s.cfg.period * 1000000 = formatBits fmt * 1050 * s.cfg.fClkHz ∧
    (∀ n, 1 ≤ n → n ≤ formatBits fmt * s.cfg.period → ∃ t, runEdges n s = .next t ∧
      busy t.st = 1 ∧ t.cmdReady = 0 ∧ t.done = 0) ∧
    (∀ j ≤ s.cfg.ipiCycles, ∃ t,
      runEdges (1 + formatBits fmt * s.cfg.period - s.cfg.ipiCycles + j) s = .next t ∧ t.linesHigh) ∧
    ∃ t, runEdges (1 + formatBits fmt * s.cfg.period) s = .next t ∧ busy t.st = 0 ∧ t.done = 1

/-! ## What cannot reach the wire -/

/-- R41, R170: under the same inputs, states with the same transmission keep the same transmission, whatever their RESULT,
LAST_LEN, `done`, diagnostic flag, trace and hold registers.
Before the first reset edge this rests on the model's choice to step by R37 there (log 24). -/
def Obligations.LeftoverStateNeverReachesTheWire : Prop :=
  ∀ (inp : Inputs) (s t : State), s.sameWire t →
    ∃ s' t', clockEdge inp s = .next s' ∧ clockEdge inp t = .next t' ∧ s'.sameWire t'

/-- R170, R34, R191: runs that differ only in the diagnostic flag and the trace output stay so: lines, timing,
`status[8:0]` and `done` are the same.
Before the first reset edge this rests on the model's choice to step by R37 there (log 24). -/
def Obligations.DiagnosticsNeverReachTheOutputs : Prop :=
  ∀ s t : State, s.cfg.wf = true → s.sameButTrace t →
    ∃ s' t', step s = .next s' ∧ step t = .next t' ∧ s'.sameButTrace t' ∧ s'.d0 = t'.d0 ∧ s'.d1 = t'.d1 ∧
      (statusWord s').extractLsb' 0 9 = (statusWord t').extractLsb' 0 9 ∧ s'.done = t'.done

/-- R143, R144, R145: runs that differ only in the OP kept for the trace differ only there and in the record's OP field:
the same pulses, timing, RESULT, LAST_LEN and `done`.
Before the first reset edge this rests on the model's choice to step by R37 there (log 24). -/
def Obligations.OpReachesOnlyTheTrace : Prop :=
  ∀ s t : State, s.cfg.wf = true → s.sameButOp t →
    ∃ s' t', step s = .next s' ∧ step t = .next t' ∧ s'.sameButOp t' ∧ s'.d0 = t'.d0 ∧ s'.d1 = t'.d1 ∧
      statusWord s' = statusWord t' ∧ s'.done = t'.done

/-! ## The host -/

/-- R80, R172, R186: a command line holds its word on the port until the accepting edge and then lets go;
`RESET` holds `rst` for one edge; `DELAY n` holds `cmd_valid = 0` for `n` edges. The host as a list of actions is the
model's choice (log 4). That a command line keeps its word in IDLE before the first reset edge, where R184 withholds the
acceptance, is the model's reading (log 22). -/
def Obligations.HostDirectives : Prop :=
  ∀ (s : State) (rest : List HostAct),
    (∀ w, s.host = .command w :: rest → s.sample.rst = 0 ∧ s.sample.cmdValid = 1 ∧ s.sample.cmd = w ∧
      (¬ (s.st = .idle ∧ s.resetSeen = true) → s.advance.host = s.host) ∧
      (s.st = .idle ∧ s.resetSeen = true → s.advance.host = rest)) ∧
    (∀ d, s.host = .reset d :: rest → s.sample.rst = 1 ∧ s.sample.debugEn = d ∧ s.advance.host = rest) ∧
    (∀ n, s.host = .delay (n + 1) :: rest →
      s.sample.rst = 0 ∧ s.sample.cmdValid = 0 ∧ s.advance.host = .delay n :: rest) ∧
    (s.host = .delay 0 :: rest →
      s.sample = { s with host := rest }.sample ∧ s.advance = { s with host := rest }.advance)

/-- R80: `WAIT_DONE` offers nothing until the cycle with `done = 1`. That it takes no edge there is the model's reading of
the spec's programs (log 6). -/
def Obligations.WaitDoneWaits : Prop :=
  ∀ (s : State) (rest : List HostAct), s.host = .waitDone :: rest →
    (s.done ≠ 1 → s.sample.rst = 0 ∧ s.sample.cmdValid = 0 ∧ s.advance.host = s.host) ∧
    (s.done = 1 → s.sample = { s with host := rest }.sample ∧ s.advance = { s with host := rest }.advance)
end

