-- ==== Sys2Proof/Laws/Bits.lean ====
section
/-! SUPPORT. Bits: a one-bit value is 0 or 1; XOR is the parity of the number of set bits; the parts of a
concatenation. -/

namespace Sys2Proof.Machine

theorem bit_cases (b : Bit) : b = 0 ∨ b = 1 := by
  revert b; decide

theorem bit_ne_zero {b : Bit} : b ≠ 0 ↔ b = 1 := by
  revert b; decide

theorem bit_ne_one {b : Bit} : b ≠ 1 ↔ b = 0 := by
  revert b; decide

/-- The XOR of bits is 1 exactly when the number of set ones is odd (R11). -/
theorem xorBelow_eq {w : Nat} (v : BitVec w) (k : Nat) : xorBelow v k = decide (popcountBelow v k % 2 = 1) := by
  induction k with
  | zero => simp [xorBelow, popcountBelow]
  | succ k ih =>
    simp only [xorBelow, popcountBelow, ih]
    have h := Nat.mod_two_eq_zero_or_one (popcountBelow v k)
    rcases h with h | h <;> by_cases hb : v.getLsbD k = true <;> simp [h, hb, Nat.add_mod]

theorem xorReduce_eq_one {w : Nat} (v : BitVec w) : xorReduce v = 1 ↔ popcount v % 2 = 1 := by
  unfold xorReduce popcount
  rw [xorBelow_eq]
  by_cases h : popcountBelow v w % 2 = 1 <;> simp [h]

theorem xorReduce_toNat {w : Nat} (v : BitVec w) : (xorReduce v).toNat = popcount v % 2 := by
  unfold xorReduce popcount
  rw [xorBelow_eq]
  rcases Nat.mod_two_eq_zero_or_one (popcountBelow v w) with h | h <;> simp [h]

/-- Bit counts depend on the bits counted alone. -/
theorem popcountBelow_congr {w w' : Nat} (v : BitVec w) (v' : BitVec w') (k : Nat)
    (h : ∀ i < k, v.getLsbD i = v'.getLsbD i) : popcountBelow v k = popcountBelow v' k := by
  induction k with
  | zero => rfl
  | succ k ih =>
    simp only [popcountBelow]
    rw [ih fun i hi => h i (by omega), h k (by omega)]

/-- Counting the low `a` bits and then the next `b` bits counts the low `a + b`. -/
theorem popcountBelow_add {w w' : Nat} (v : BitVec w) (v' : BitVec w') (a b : Nat)
    (h : ∀ i < b, v'.getLsbD i = v.getLsbD (a + i)) :
    popcountBelow v (a + b) = popcountBelow v a + popcountBelow v' b := by
  induction b with
  | zero => rfl
  | succ b ih =>
    rw [← Nat.add_assoc]
    simp only [popcountBelow]
    rw [ih fun i hi => h i (by omega), h b (by omega)]
    omega

/-- The set bits of a concatenation. -/
theorem popcount_append {m n : Nat} (x : BitVec m) (y : BitVec n) : popcount (x ++ y) = popcount x + popcount y := by
  have hx : ∀ i < m, x.getLsbD i = (x ++ y).getLsbD (n + i) := fun i _ => by simp [BitVec.getLsbD_append]
  have hy : ∀ i < n, (x ++ y).getLsbD i = y.getLsbD i := fun i hi => by simp [BitVec.getLsbD_append, hi]
  calc popcountBelow (x ++ y) (m + n) = popcountBelow (x ++ y) (n + m) := congrArg _ (Nat.add_comm m n)
    _ = popcountBelow (x ++ y) n + popcountBelow x m := popcountBelow_add _ _ _ _ hx
    _ = popcount x + popcount y := by rw [popcountBelow_congr _ _ _ hy, Nat.add_comm]; rfl

/-- A part of a concatenation that lies in its low operand. -/
theorem extractLsb'_append_low {m n : Nat} (x : BitVec m) (y : BitVec n) (lo w : Nat) (h : lo + w ≤ n) :
    (x ++ y).extractLsb' lo w = y.extractLsb' lo w := by
  ext i hi
  simp [BitVec.getElem_extractLsb', BitVec.getLsbD_append, show lo + i < n by omega]

/-- A part of a concatenation that lies in its high operand. -/
theorem extractLsb'_append_high {m n : Nat} (x : BitVec m) (y : BitVec n) (lo w : Nat) (h : n ≤ lo) :
    (x ++ y).extractLsb' lo w = x.extractLsb' (lo - n) w := by
  ext i hi
  simp [BitVec.getElem_extractLsb', BitVec.getLsbD_append, show ¬ lo + i < n by omega,
    show lo + i - n = lo - n + i by omega]

/-- A whole operand. -/
theorem extractLsb'_whole {n : Nat} (x : BitVec n) : x.extractLsb' 0 n = x := by
  ext i hi
  simp

/-- Within the register, `frame[i]` is the bit (log 10). -/
theorem frameBit_lt {edge : Nat} {f : FrameBits} {i : Nat} (h : i < 40) : frameBit edge f i = BitVec.ofBool (f.getLsbD i) := by
  simp [frameBit, h]

theorem ofBool_eq_zero {b : Bool} : BitVec.ofBool b = 0 ↔ b = false := by cases b <;> decide

theorem ofBool_eq_one {b : Bool} : BitVec.ofBool b = 1 ↔ b = true := by cases b <;> decide

/-- A line that a 0 pulls LOW. -/
theorem ite_ofBool_zero {α : Type} (b : Bool) (x y : α) : (if BitVec.ofBool b = 0 then x else y) = bif b then y else x := by
  cases b <;> simp

/-- A line that a 1 pulls LOW. -/
theorem ite_ofBool_one {α : Type} (b : Bool) (x y : α) : (if BitVec.ofBool b = 1 then x else y) = bif b then x else y := by
  cases b <;> simp

end Sys2Proof.Machine
end

