-- ==== Sys2Proof/Laws/Decode.lean ====
section
/-! SUPPORT. The fields of an encoded word, and a word put together from its fields (30_encoding.md R70). -/

namespace Sys2Proof

/-- A part of a part of a word. -/
theorem extractLsb'_part {n : Nat} (w : BitVec n) (lo len lo' len' : Nat) (h : lo' + len' ≤ len) :
    (w.extractLsb' lo len).extractLsb' lo' len' = w.extractLsb' (lo + lo') len' := by
  ext i hi
  simp [show lo' + i < len by omega, Nat.add_assoc]

section
variable (op : BitVec 4) (h : Header) (opa opb : BitVec 32)

@[simp] theorem cmdOp_encodeFields : cmdOp (encodeFields op h opa opb) = op := by
  ext i hi; simp [cmdOp, encodeFields]; grind

@[simp] theorem cmdBits_encodeFields : cmdBits (encodeFields op h opa opb) = h.bits := by
  ext i hi; simp [cmdBits, encodeFields]; grind

@[simp] theorem cmdWfc_encodeFields : cmdWfc (encodeFields op h opa opb) = h.wfc := by
  ext i hi; simp [cmdWfc, encodeFields]; grind

@[simp] theorem cmdRsv_encodeFields : cmdRsv (encodeFields op h opa opb) = h.rsv := by
  ext i hi; simp [cmdRsv, encodeFields]; grind

@[simp] theorem cmdOpa_encodeFields : cmdOpa (encodeFields op h opa opb) = opa := by
  ext i hi; simp [cmdOpa, encodeFields]; grind

@[simp] theorem cmdOpb_encodeFields : cmdOpb (encodeFields op h opa opb) = opb := by
  ext i hi; simp [cmdOpb, encodeFields]; grind

@[simp] theorem cmdHeader_encodeFields : cmdHeader (encodeFields op h opa opb) = h := by
  simp [cmdHeader]

end

/-- A word is its fields put together. -/
theorem encodeFields_of_fields (w : CmdWord) : encodeFields (cmdOp w) (cmdHeader w) (cmdOpa w) (cmdOpb w) = w := by
  ext i hi
  simp [encodeFields, cmdHeader, cmdOp, cmdBits, cmdWfc, cmdRsv, cmdOpa, cmdOpb]
  grind

/-- The 64 data bits of a word are OPA and OPB. -/
theorem cmdData_eq (w : CmdWord) : w.extractLsb' 0 64 = cmdOpa w ++ cmdOpb w := by
  ext i hi
  simp [cmdOpa, cmdOpb]
  grind

/-- A field's operand cut in two and put together again. -/
theorem append_of_parts {n m k : Nat} (w : BitVec n) (lo mid : Nat) (h : mid = lo + k) :
    w.extractLsb' mid m ++ w.extractLsb' lo k = w.extractLsb' lo (m + k) := by
  subst h
  ext i hi
  simp
  grind

/-- BITS is a format exactly when it holds the format's number (R72). -/
theorem Format.ofBits_eq_some (b : BitVec 8) (fmt : Format) : Format.ofBits b = some fmt ↔ b = Machine.formatCode fmt := by
  unfold Format.ofBits
  split_ifs with h1 h2 h3 <;> (try subst b) <;> cases fmt <;> simp_all [Machine.formatCode, Machine.formatBits]

theorem encode_op (i : Instr) : cmdOp (encode i) = i.op := by cases i <;> simp [encode]

end Sys2Proof
end

