-- ==== Sys2Proof/Laws/State.lean ====
section
/-! SUPPORT. One lemma per field per update, each true by rfl: no later proof unfolds a record update. -/

namespace Sys2Proof.Machine

@[simp] theorem edgeDefaults_st (s : State) : (s.edgeDefaults).st = s.st := rfl
@[simp] theorem edgeDefaults_frame (s : State) : (s.edgeDefaults).frame = s.frame := rfl
@[simp] theorem edgeDefaults_len (s : State) : (s.edgeDefaults).len = s.len := rfl
@[simp] theorem edgeDefaults_idx (s : State) : (s.edgeDefaults).idx = s.idx := rfl
@[simp] theorem edgeDefaults_cnt (s : State) : (s.edgeDefaults).cnt = s.cnt := rfl
@[simp] theorem edgeDefaults_d0 (s : State) : (s.edgeDefaults).d0 = s.d0 := rfl
@[simp] theorem edgeDefaults_d1 (s : State) : (s.edgeDefaults).d1 = s.d1 := rfl
@[simp] theorem edgeDefaults_oe (s : State) : (s.edgeDefaults).oe = s.oe := rfl
@[simp] theorem edgeDefaults_resetSeen (s : State) : (s.edgeDefaults).resetSeen = s.resetSeen := rfl
@[simp] theorem edgeDefaults_dbg (s : State) : (s.edgeDefaults).dbg = s.dbg := rfl
@[simp] theorem edgeDefaults_res (s : State) : (s.edgeDefaults).res = s.res := rfl
@[simp] theorem edgeDefaults_lastLen (s : State) : (s.edgeDefaults).lastLen = s.lastLen := rfl
@[simp] theorem edgeDefaults_done (s : State) : (s.edgeDefaults).done = 0 := rfl
@[simp] theorem edgeDefaults_trcV (s : State) : (s.edgeDefaults).trcV = 0 := rfl
@[simp] theorem edgeDefaults_trc (s : State) : (s.edgeDefaults).trc = 0 := rfl
@[simp] theorem edgeDefaults_hOp (s : State) : (s.edgeDefaults).hOp = s.hOp := rfl
@[simp] theorem edgeDefaults_hBits (s : State) : (s.edgeDefaults).hBits = s.hBits := rfl
@[simp] theorem edgeDefaults_hData (s : State) : (s.edgeDefaults).hData = s.hData := rfl
@[simp] theorem edgeDefaults_hPv (s : State) : (s.edgeDefaults).hPv = s.hPv := rfl
@[simp] theorem edgeDefaults_hEven (s : State) : (s.edgeDefaults).hEven = s.hEven := rfl
@[simp] theorem edgeDefaults_hOdd (s : State) : (s.edgeDefaults).hOdd = s.hOdd := rfl
@[simp] theorem edgeDefaults_cfg (s : State) : (s.edgeDefaults).cfg = s.cfg := rfl
@[simp] theorem edgeDefaults_host (s : State) : (s.edgeDefaults).host = s.host := rfl
@[simp] theorem edgeDefaults_edge (s : State) : (s.edgeDefaults).edge = s.edge := rfl

@[simp] theorem advance_st (s : State) : (s.advance).st = s.st := rfl
@[simp] theorem advance_frame (s : State) : (s.advance).frame = s.frame := rfl
@[simp] theorem advance_len (s : State) : (s.advance).len = s.len := rfl
@[simp] theorem advance_idx (s : State) : (s.advance).idx = s.idx := rfl
@[simp] theorem advance_cnt (s : State) : (s.advance).cnt = s.cnt := rfl
@[simp] theorem advance_d0 (s : State) : (s.advance).d0 = s.d0 := rfl
@[simp] theorem advance_d1 (s : State) : (s.advance).d1 = s.d1 := rfl
@[simp] theorem advance_oe (s : State) : (s.advance).oe = s.oe := rfl
@[simp] theorem advance_resetSeen (s : State) : (s.advance).resetSeen = s.resetSeen := rfl
@[simp] theorem advance_dbg (s : State) : (s.advance).dbg = s.dbg := rfl
@[simp] theorem advance_res (s : State) : (s.advance).res = s.res := rfl
@[simp] theorem advance_lastLen (s : State) : (s.advance).lastLen = s.lastLen := rfl
@[simp] theorem advance_done (s : State) : (s.advance).done = s.done := rfl
@[simp] theorem advance_trcV (s : State) : (s.advance).trcV = s.trcV := rfl
@[simp] theorem advance_trc (s : State) : (s.advance).trc = s.trc := rfl
@[simp] theorem advance_hOp (s : State) : (s.advance).hOp = s.hOp := rfl
@[simp] theorem advance_hBits (s : State) : (s.advance).hBits = s.hBits := rfl
@[simp] theorem advance_hData (s : State) : (s.advance).hData = s.hData := rfl
@[simp] theorem advance_hPv (s : State) : (s.advance).hPv = s.hPv := rfl
@[simp] theorem advance_hEven (s : State) : (s.advance).hEven = s.hEven := rfl
@[simp] theorem advance_hOdd (s : State) : (s.advance).hOdd = s.hOdd := rfl
@[simp] theorem advance_cfg (s : State) : (s.advance).cfg = s.cfg := rfl
@[simp] theorem advance_host (s : State) : (s.advance).host = (hostEdge s.takesCommand s.done s.edge s.host).2 := rfl
@[simp] theorem advance_edge (s : State) : (s.advance).edge = s.edge + 1 := rfl

@[simp] theorem resetEdge_st (b : Bit) (s : State) : (s.resetEdge b).st = .idle := rfl
@[simp] theorem resetEdge_frame (b : Bit) (s : State) : (s.resetEdge b).frame = 0 := rfl
@[simp] theorem resetEdge_len (b : Bit) (s : State) : (s.resetEdge b).len = 0 := rfl
@[simp] theorem resetEdge_idx (b : Bit) (s : State) : (s.resetEdge b).idx = 0 := rfl
@[simp] theorem resetEdge_cnt (b : Bit) (s : State) : (s.resetEdge b).cnt = 0 := rfl
@[simp] theorem resetEdge_d0 (b : Bit) (s : State) : (s.resetEdge b).d0 = HIGH := rfl
@[simp] theorem resetEdge_d1 (b : Bit) (s : State) : (s.resetEdge b).d1 = HIGH := rfl
@[simp] theorem resetEdge_oe (b : Bit) (s : State) : (s.resetEdge b).oe = 1 := rfl
@[simp] theorem resetEdge_resetSeen (b : Bit) (s : State) : (s.resetEdge b).resetSeen = true := rfl
@[simp] theorem resetEdge_dbg (b : Bit) (s : State) : (s.resetEdge b).dbg = b := rfl
@[simp] theorem resetEdge_res (b : Bit) (s : State) : (s.resetEdge b).res = .noResult := rfl
@[simp] theorem resetEdge_lastLen (b : Bit) (s : State) : (s.resetEdge b).lastLen = 0 := rfl
@[simp] theorem resetEdge_done (b : Bit) (s : State) : (s.resetEdge b).done = 0 := rfl
@[simp] theorem resetEdge_trcV (b : Bit) (s : State) : (s.resetEdge b).trcV = 0 := rfl
@[simp] theorem resetEdge_trc (b : Bit) (s : State) : (s.resetEdge b).trc = 0 := rfl
@[simp] theorem resetEdge_hOp (b : Bit) (s : State) : (s.resetEdge b).hOp = 0 := rfl
@[simp] theorem resetEdge_hBits (b : Bit) (s : State) : (s.resetEdge b).hBits = 0 := rfl
@[simp] theorem resetEdge_hData (b : Bit) (s : State) : (s.resetEdge b).hData = 0 := rfl
@[simp] theorem resetEdge_hPv (b : Bit) (s : State) : (s.resetEdge b).hPv = 0 := rfl
@[simp] theorem resetEdge_hEven (b : Bit) (s : State) : (s.resetEdge b).hEven = 0 := rfl
@[simp] theorem resetEdge_hOdd (b : Bit) (s : State) : (s.resetEdge b).hOdd = 0 := rfl
@[simp] theorem resetEdge_cfg (b : Bit) (s : State) : (s.resetEdge b).cfg = s.cfg := rfl
@[simp] theorem resetEdge_host (b : Bit) (s : State) : (s.resetEdge b).host = s.host := rfl
@[simp] theorem resetEdge_edge (b : Bit) (s : State) : (s.resetEdge b).edge = s.edge := rfl

@[simp] theorem driveLow_st (b : Bit) (s : State) : (s.driveLow b).st = s.st := rfl
@[simp] theorem driveLow_frame (b : Bit) (s : State) : (s.driveLow b).frame = s.frame := rfl
@[simp] theorem driveLow_len (b : Bit) (s : State) : (s.driveLow b).len = s.len := rfl
@[simp] theorem driveLow_idx (b : Bit) (s : State) : (s.driveLow b).idx = s.idx := rfl
@[simp] theorem driveLow_cnt (b : Bit) (s : State) : (s.driveLow b).cnt = s.cnt := rfl
@[simp] theorem driveLow_d0 (b : Bit) (s : State) : (s.driveLow b).d0 = if b = 0 then LOW else s.d0 := rfl
@[simp] theorem driveLow_d1 (b : Bit) (s : State) : (s.driveLow b).d1 = if b = 1 then LOW else s.d1 := rfl
@[simp] theorem driveLow_oe (b : Bit) (s : State) : (s.driveLow b).oe = s.oe := rfl
@[simp] theorem driveLow_resetSeen (b : Bit) (s : State) : (s.driveLow b).resetSeen = s.resetSeen := rfl
@[simp] theorem driveLow_dbg (b : Bit) (s : State) : (s.driveLow b).dbg = s.dbg := rfl
@[simp] theorem driveLow_res (b : Bit) (s : State) : (s.driveLow b).res = s.res := rfl
@[simp] theorem driveLow_lastLen (b : Bit) (s : State) : (s.driveLow b).lastLen = s.lastLen := rfl
@[simp] theorem driveLow_done (b : Bit) (s : State) : (s.driveLow b).done = s.done := rfl
@[simp] theorem driveLow_trcV (b : Bit) (s : State) : (s.driveLow b).trcV = s.trcV := rfl
@[simp] theorem driveLow_trc (b : Bit) (s : State) : (s.driveLow b).trc = s.trc := rfl
@[simp] theorem driveLow_hOp (b : Bit) (s : State) : (s.driveLow b).hOp = s.hOp := rfl
@[simp] theorem driveLow_hBits (b : Bit) (s : State) : (s.driveLow b).hBits = s.hBits := rfl
@[simp] theorem driveLow_hData (b : Bit) (s : State) : (s.driveLow b).hData = s.hData := rfl
@[simp] theorem driveLow_hPv (b : Bit) (s : State) : (s.driveLow b).hPv = s.hPv := rfl
@[simp] theorem driveLow_hEven (b : Bit) (s : State) : (s.driveLow b).hEven = s.hEven := rfl
@[simp] theorem driveLow_hOdd (b : Bit) (s : State) : (s.driveLow b).hOdd = s.hOdd := rfl
@[simp] theorem driveLow_cfg (b : Bit) (s : State) : (s.driveLow b).cfg = s.cfg := rfl
@[simp] theorem driveLow_host (b : Bit) (s : State) : (s.driveLow b).host = s.host := rfl
@[simp] theorem driveLow_edge (b : Bit) (s : State) : (s.driveLow b).edge = s.edge := rfl

@[simp] theorem emit_st (r : TraceWord) (s : State) : (s.emit r).st = s.st := rfl
@[simp] theorem emit_frame (r : TraceWord) (s : State) : (s.emit r).frame = s.frame := rfl
@[simp] theorem emit_len (r : TraceWord) (s : State) : (s.emit r).len = s.len := rfl
@[simp] theorem emit_idx (r : TraceWord) (s : State) : (s.emit r).idx = s.idx := rfl
@[simp] theorem emit_cnt (r : TraceWord) (s : State) : (s.emit r).cnt = s.cnt := rfl
@[simp] theorem emit_d0 (r : TraceWord) (s : State) : (s.emit r).d0 = s.d0 := rfl
@[simp] theorem emit_d1 (r : TraceWord) (s : State) : (s.emit r).d1 = s.d1 := rfl
@[simp] theorem emit_oe (r : TraceWord) (s : State) : (s.emit r).oe = s.oe := rfl
@[simp] theorem emit_resetSeen (r : TraceWord) (s : State) : (s.emit r).resetSeen = s.resetSeen := rfl
@[simp] theorem emit_dbg (r : TraceWord) (s : State) : (s.emit r).dbg = s.dbg := rfl
@[simp] theorem emit_res (r : TraceWord) (s : State) : (s.emit r).res = s.res := rfl
@[simp] theorem emit_lastLen (r : TraceWord) (s : State) : (s.emit r).lastLen = s.lastLen := rfl
@[simp] theorem emit_done (r : TraceWord) (s : State) : (s.emit r).done = s.done := rfl
@[simp] theorem emit_trcV (r : TraceWord) (s : State) : (s.emit r).trcV = if s.dbg = 1 then 1 else s.trcV := rfl
@[simp] theorem emit_trc (r : TraceWord) (s : State) : (s.emit r).trc = if s.dbg = 1 then r else s.trc := rfl
@[simp] theorem emit_hOp (r : TraceWord) (s : State) : (s.emit r).hOp = s.hOp := rfl
@[simp] theorem emit_hBits (r : TraceWord) (s : State) : (s.emit r).hBits = s.hBits := rfl
@[simp] theorem emit_hData (r : TraceWord) (s : State) : (s.emit r).hData = s.hData := rfl
@[simp] theorem emit_hPv (r : TraceWord) (s : State) : (s.emit r).hPv = s.hPv := rfl
@[simp] theorem emit_hEven (r : TraceWord) (s : State) : (s.emit r).hEven = s.hEven := rfl
@[simp] theorem emit_hOdd (r : TraceWord) (s : State) : (s.emit r).hOdd = s.hOdd := rfl
@[simp] theorem emit_cfg (r : TraceWord) (s : State) : (s.emit r).cfg = s.cfg := rfl
@[simp] theorem emit_host (r : TraceWord) (s : State) : (s.emit r).host = s.host := rfl
@[simp] theorem emit_edge (r : TraceWord) (s : State) : (s.emit r).edge = s.edge := rfl

@[simp] theorem raise_st (c : RejectCode) (op : BitVec 4) (bits : BitVec 8) (data : Credential) (s : State) : (s.raise c op bits data).st = s.st := rfl
@[simp] theorem raise_frame (c : RejectCode) (op : BitVec 4) (bits : BitVec 8) (data : Credential) (s : State) : (s.raise c op bits data).frame = s.frame := rfl
@[simp] theorem raise_len (c : RejectCode) (op : BitVec 4) (bits : BitVec 8) (data : Credential) (s : State) : (s.raise c op bits data).len = s.len := rfl
@[simp] theorem raise_idx (c : RejectCode) (op : BitVec 4) (bits : BitVec 8) (data : Credential) (s : State) : (s.raise c op bits data).idx = s.idx := rfl
@[simp] theorem raise_cnt (c : RejectCode) (op : BitVec 4) (bits : BitVec 8) (data : Credential) (s : State) : (s.raise c op bits data).cnt = s.cnt := rfl
@[simp] theorem raise_d0 (c : RejectCode) (op : BitVec 4) (bits : BitVec 8) (data : Credential) (s : State) : (s.raise c op bits data).d0 = s.d0 := rfl
@[simp] theorem raise_d1 (c : RejectCode) (op : BitVec 4) (bits : BitVec 8) (data : Credential) (s : State) : (s.raise c op bits data).d1 = s.d1 := rfl
@[simp] theorem raise_oe (c : RejectCode) (op : BitVec 4) (bits : BitVec 8) (data : Credential) (s : State) : (s.raise c op bits data).oe = s.oe := rfl
@[simp] theorem raise_resetSeen (c : RejectCode) (op : BitVec 4) (bits : BitVec 8) (data : Credential) (s : State) : (s.raise c op bits data).resetSeen = s.resetSeen := rfl
@[simp] theorem raise_dbg (c : RejectCode) (op : BitVec 4) (bits : BitVec 8) (data : Credential) (s : State) : (s.raise c op bits data).dbg = s.dbg := rfl
@[simp] theorem raise_res (c : RejectCode) (op : BitVec 4) (bits : BitVec 8) (data : Credential) (s : State) : (s.raise c op bits data).res = rejectResult c := rfl
@[simp] theorem raise_lastLen (c : RejectCode) (op : BitVec 4) (bits : BitVec 8) (data : Credential) (s : State) : (s.raise c op bits data).lastLen = 0 := rfl
@[simp] theorem raise_done (c : RejectCode) (op : BitVec 4) (bits : BitVec 8) (data : Credential) (s : State) : (s.raise c op bits data).done = 1 := rfl
@[simp] theorem raise_trcV (c : RejectCode) (op : BitVec 4) (bits : BitVec 8) (data : Credential) (s : State) : (s.raise c op bits data).trcV = if s.dbg = 1 then 1 else s.trcV := rfl
@[simp] theorem raise_trc (c : RejectCode) (op : BitVec 4) (bits : BitVec 8) (data : Credential) (s : State) : (s.raise c op bits data).trc = if s.dbg = 1 then traceRecord (rejectResult c) op bits 0 0 0 0 0 data else s.trc := rfl
@[simp] theorem raise_hOp (c : RejectCode) (op : BitVec 4) (bits : BitVec 8) (data : Credential) (s : State) : (s.raise c op bits data).hOp = s.hOp := rfl
@[simp] theorem raise_hBits (c : RejectCode) (op : BitVec 4) (bits : BitVec 8) (data : Credential) (s : State) : (s.raise c op bits data).hBits = s.hBits := rfl
@[simp] theorem raise_hData (c : RejectCode) (op : BitVec 4) (bits : BitVec 8) (data : Credential) (s : State) : (s.raise c op bits data).hData = s.hData := rfl
@[simp] theorem raise_hPv (c : RejectCode) (op : BitVec 4) (bits : BitVec 8) (data : Credential) (s : State) : (s.raise c op bits data).hPv = s.hPv := rfl
@[simp] theorem raise_hEven (c : RejectCode) (op : BitVec 4) (bits : BitVec 8) (data : Credential) (s : State) : (s.raise c op bits data).hEven = s.hEven := rfl
@[simp] theorem raise_hOdd (c : RejectCode) (op : BitVec 4) (bits : BitVec 8) (data : Credential) (s : State) : (s.raise c op bits data).hOdd = s.hOdd := rfl
@[simp] theorem raise_cfg (c : RejectCode) (op : BitVec 4) (bits : BitVec 8) (data : Credential) (s : State) : (s.raise c op bits data).cfg = s.cfg := rfl
@[simp] theorem raise_host (c : RejectCode) (op : BitVec 4) (bits : BitVec 8) (data : Credential) (s : State) : (s.raise c op bits data).host = s.host := rfl
@[simp] theorem raise_edge (c : RejectCode) (op : BitVec 4) (bits : BitVec 8) (data : Credential) (s : State) : (s.raise c op bits data).edge = s.edge := rfl

@[simp] theorem accept_st (op : BitVec 4) (fmt : Format) (data : Credential) (s : State) : (s.accept op fmt data).st = .pulse := rfl
@[simp] theorem accept_frame (op : BitVec 4) (fmt : Format) (data : Credential) (s : State) : (s.accept op fmt data).frame = (buildFrame data fmt).frame := rfl
@[simp] theorem accept_len (op : BitVec 4) (fmt : Format) (data : Credential) (s : State) : (s.accept op fmt data).len = (buildFrame data fmt).len := rfl
@[simp] theorem accept_idx (op : BitVec 4) (fmt : Format) (data : Credential) (s : State) : (s.accept op fmt data).idx = (buildFrame data fmt).len - 1 := rfl
@[simp] theorem accept_cnt (op : BitVec 4) (fmt : Format) (data : Credential) (s : State) : (s.accept op fmt data).cnt = 0 := rfl
@[simp] theorem accept_d0 (op : BitVec 4) (fmt : Format) (data : Credential) (s : State) : (s.accept op fmt data).d0 = if frameBit s.edge (buildFrame data fmt).frame ((buildFrame data fmt).len - 1).toNat = 0 then LOW else s.d0 := rfl
@[simp] theorem accept_d1 (op : BitVec 4) (fmt : Format) (data : Credential) (s : State) : (s.accept op fmt data).d1 = if frameBit s.edge (buildFrame data fmt).frame ((buildFrame data fmt).len - 1).toNat = 1 then LOW else s.d1 := rfl
@[simp] theorem accept_oe (op : BitVec 4) (fmt : Format) (data : Credential) (s : State) : (s.accept op fmt data).oe = s.oe := rfl
@[simp] theorem accept_resetSeen (op : BitVec 4) (fmt : Format) (data : Credential) (s : State) : (s.accept op fmt data).resetSeen = s.resetSeen := rfl
@[simp] theorem accept_dbg (op : BitVec 4) (fmt : Format) (data : Credential) (s : State) : (s.accept op fmt data).dbg = s.dbg := rfl
@[simp] theorem accept_res (op : BitVec 4) (fmt : Format) (data : Credential) (s : State) : (s.accept op fmt data).res = .noResult := rfl
@[simp] theorem accept_lastLen (op : BitVec 4) (fmt : Format) (data : Credential) (s : State) : (s.accept op fmt data).lastLen = (buildFrame data fmt).len := rfl
@[simp] theorem accept_done (op : BitVec 4) (fmt : Format) (data : Credential) (s : State) : (s.accept op fmt data).done = s.done := rfl
@[simp] theorem accept_trcV (op : BitVec 4) (fmt : Format) (data : Credential) (s : State) : (s.accept op fmt data).trcV = s.trcV := rfl
@[simp] theorem accept_trc (op : BitVec 4) (fmt : Format) (data : Credential) (s : State) : (s.accept op fmt data).trc = s.trc := rfl
@[simp] theorem accept_hOp (op : BitVec 4) (fmt : Format) (data : Credential) (s : State) : (s.accept op fmt data).hOp = op := rfl
@[simp] theorem accept_hBits (op : BitVec 4) (fmt : Format) (data : Credential) (s : State) : (s.accept op fmt data).hBits = formatCode fmt := rfl
@[simp] theorem accept_hData (op : BitVec 4) (fmt : Format) (data : Credential) (s : State) : (s.accept op fmt data).hData = data := rfl
@[simp] theorem accept_hPv (op : BitVec 4) (fmt : Format) (data : Credential) (s : State) : (s.accept op fmt data).hPv = (buildFrame data fmt).pv := rfl
@[simp] theorem accept_hEven (op : BitVec 4) (fmt : Format) (data : Credential) (s : State) : (s.accept op fmt data).hEven = (buildFrame data fmt).even := rfl
@[simp] theorem accept_hOdd (op : BitVec 4) (fmt : Format) (data : Credential) (s : State) : (s.accept op fmt data).hOdd = (buildFrame data fmt).odd := rfl
@[simp] theorem accept_cfg (op : BitVec 4) (fmt : Format) (data : Credential) (s : State) : (s.accept op fmt data).cfg = s.cfg := rfl
@[simp] theorem accept_host (op : BitVec 4) (fmt : Format) (data : Credential) (s : State) : (s.accept op fmt data).host = s.host := rfl
@[simp] theorem accept_edge (op : BitVec 4) (fmt : Format) (data : Credential) (s : State) : (s.accept op fmt data).edge = s.edge := rfl

@[simp] theorem tick_st (s : State) : (s.tick).st = s.st := rfl
@[simp] theorem tick_frame (s : State) : (s.tick).frame = s.frame := rfl
@[simp] theorem tick_len (s : State) : (s.tick).len = s.len := rfl
@[simp] theorem tick_idx (s : State) : (s.tick).idx = s.idx := rfl
@[simp] theorem tick_cnt (s : State) : (s.tick).cnt = (s.cnt + 1) % 2 ^ s.cfg.cntW := rfl
@[simp] theorem tick_d0 (s : State) : (s.tick).d0 = s.d0 := rfl
@[simp] theorem tick_d1 (s : State) : (s.tick).d1 = s.d1 := rfl
@[simp] theorem tick_oe (s : State) : (s.tick).oe = s.oe := rfl
@[simp] theorem tick_resetSeen (s : State) : (s.tick).resetSeen = s.resetSeen := rfl
@[simp] theorem tick_dbg (s : State) : (s.tick).dbg = s.dbg := rfl
@[simp] theorem tick_res (s : State) : (s.tick).res = s.res := rfl
@[simp] theorem tick_lastLen (s : State) : (s.tick).lastLen = s.lastLen := rfl
@[simp] theorem tick_done (s : State) : (s.tick).done = s.done := rfl
@[simp] theorem tick_trcV (s : State) : (s.tick).trcV = s.trcV := rfl
@[simp] theorem tick_trc (s : State) : (s.tick).trc = s.trc := rfl
@[simp] theorem tick_hOp (s : State) : (s.tick).hOp = s.hOp := rfl
@[simp] theorem tick_hBits (s : State) : (s.tick).hBits = s.hBits := rfl
@[simp] theorem tick_hData (s : State) : (s.tick).hData = s.hData := rfl
@[simp] theorem tick_hPv (s : State) : (s.tick).hPv = s.hPv := rfl
@[simp] theorem tick_hEven (s : State) : (s.tick).hEven = s.hEven := rfl
@[simp] theorem tick_hOdd (s : State) : (s.tick).hOdd = s.hOdd := rfl
@[simp] theorem tick_cfg (s : State) : (s.tick).cfg = s.cfg := rfl
@[simp] theorem tick_host (s : State) : (s.tick).host = s.host := rfl
@[simp] theorem tick_edge (s : State) : (s.tick).edge = s.edge := rfl

@[simp] theorem startGap_st (s : State) : (s.startGap).st = .gap := rfl
@[simp] theorem startGap_frame (s : State) : (s.startGap).frame = s.frame := rfl
@[simp] theorem startGap_len (s : State) : (s.startGap).len = s.len := rfl
@[simp] theorem startGap_idx (s : State) : (s.startGap).idx = s.idx := rfl
@[simp] theorem startGap_cnt (s : State) : (s.startGap).cnt = 0 := rfl
@[simp] theorem startGap_d0 (s : State) : (s.startGap).d0 = HIGH := rfl
@[simp] theorem startGap_d1 (s : State) : (s.startGap).d1 = HIGH := rfl
@[simp] theorem startGap_oe (s : State) : (s.startGap).oe = s.oe := rfl
@[simp] theorem startGap_resetSeen (s : State) : (s.startGap).resetSeen = s.resetSeen := rfl
@[simp] theorem startGap_dbg (s : State) : (s.startGap).dbg = s.dbg := rfl
@[simp] theorem startGap_res (s : State) : (s.startGap).res = s.res := rfl
@[simp] theorem startGap_lastLen (s : State) : (s.startGap).lastLen = s.lastLen := rfl
@[simp] theorem startGap_done (s : State) : (s.startGap).done = s.done := rfl
@[simp] theorem startGap_trcV (s : State) : (s.startGap).trcV = s.trcV := rfl
@[simp] theorem startGap_trc (s : State) : (s.startGap).trc = s.trc := rfl
@[simp] theorem startGap_hOp (s : State) : (s.startGap).hOp = s.hOp := rfl
@[simp] theorem startGap_hBits (s : State) : (s.startGap).hBits = s.hBits := rfl
@[simp] theorem startGap_hData (s : State) : (s.startGap).hData = s.hData := rfl
@[simp] theorem startGap_hPv (s : State) : (s.startGap).hPv = s.hPv := rfl
@[simp] theorem startGap_hEven (s : State) : (s.startGap).hEven = s.hEven := rfl
@[simp] theorem startGap_hOdd (s : State) : (s.startGap).hOdd = s.hOdd := rfl
@[simp] theorem startGap_cfg (s : State) : (s.startGap).cfg = s.cfg := rfl
@[simp] theorem startGap_host (s : State) : (s.startGap).host = s.host := rfl
@[simp] theorem startGap_edge (s : State) : (s.startGap).edge = s.edge := rfl

@[simp] theorem nextBit_st (s : State) : (s.nextBit).st = .pulse := rfl
@[simp] theorem nextBit_frame (s : State) : (s.nextBit).frame = s.frame := rfl
@[simp] theorem nextBit_len (s : State) : (s.nextBit).len = s.len := rfl
@[simp] theorem nextBit_idx (s : State) : (s.nextBit).idx = s.idx - 1 := rfl
@[simp] theorem nextBit_cnt (s : State) : (s.nextBit).cnt = 0 := rfl
@[simp] theorem nextBit_d0 (s : State) : (s.nextBit).d0 = if frameBit s.edge s.frame (s.idx - 1).toNat = 0 then LOW else s.d0 := rfl
@[simp] theorem nextBit_d1 (s : State) : (s.nextBit).d1 = if frameBit s.edge s.frame (s.idx - 1).toNat = 1 then LOW else s.d1 := rfl
@[simp] theorem nextBit_oe (s : State) : (s.nextBit).oe = s.oe := rfl
@[simp] theorem nextBit_resetSeen (s : State) : (s.nextBit).resetSeen = s.resetSeen := rfl
@[simp] theorem nextBit_dbg (s : State) : (s.nextBit).dbg = s.dbg := rfl
@[simp] theorem nextBit_res (s : State) : (s.nextBit).res = s.res := rfl
@[simp] theorem nextBit_lastLen (s : State) : (s.nextBit).lastLen = s.lastLen := rfl
@[simp] theorem nextBit_done (s : State) : (s.nextBit).done = s.done := rfl
@[simp] theorem nextBit_trcV (s : State) : (s.nextBit).trcV = s.trcV := rfl
@[simp] theorem nextBit_trc (s : State) : (s.nextBit).trc = s.trc := rfl
@[simp] theorem nextBit_hOp (s : State) : (s.nextBit).hOp = s.hOp := rfl
@[simp] theorem nextBit_hBits (s : State) : (s.nextBit).hBits = s.hBits := rfl
@[simp] theorem nextBit_hData (s : State) : (s.nextBit).hData = s.hData := rfl
@[simp] theorem nextBit_hPv (s : State) : (s.nextBit).hPv = s.hPv := rfl
@[simp] theorem nextBit_hEven (s : State) : (s.nextBit).hEven = s.hEven := rfl
@[simp] theorem nextBit_hOdd (s : State) : (s.nextBit).hOdd = s.hOdd := rfl
@[simp] theorem nextBit_cfg (s : State) : (s.nextBit).cfg = s.cfg := rfl
@[simp] theorem nextBit_host (s : State) : (s.nextBit).host = s.host := rfl
@[simp] theorem nextBit_edge (s : State) : (s.nextBit).edge = s.edge := rfl

@[simp] theorem complete_st (s : State) : (s.complete).st = .idle := rfl
@[simp] theorem complete_frame (s : State) : (s.complete).frame = 0 := rfl
@[simp] theorem complete_len (s : State) : (s.complete).len = 0 := rfl
@[simp] theorem complete_idx (s : State) : (s.complete).idx = s.idx := rfl
@[simp] theorem complete_cnt (s : State) : (s.complete).cnt = 0 := rfl
@[simp] theorem complete_d0 (s : State) : (s.complete).d0 = s.d0 := rfl
@[simp] theorem complete_d1 (s : State) : (s.complete).d1 = s.d1 := rfl
@[simp] theorem complete_oe (s : State) : (s.complete).oe = s.oe := rfl
@[simp] theorem complete_resetSeen (s : State) : (s.complete).resetSeen = s.resetSeen := rfl
@[simp] theorem complete_dbg (s : State) : (s.complete).dbg = s.dbg := rfl
@[simp] theorem complete_res (s : State) : (s.complete).res = .ok := rfl
@[simp] theorem complete_lastLen (s : State) : (s.complete).lastLen = s.lastLen := rfl
@[simp] theorem complete_done (s : State) : (s.complete).done = 1 := rfl
@[simp] theorem complete_trcV (s : State) : (s.complete).trcV = if s.dbg = 1 then 1 else s.trcV := rfl
@[simp] theorem complete_trc (s : State) : (s.complete).trc = if s.dbg = 1 then traceRecord .ok s.hOp s.hBits s.hPv s.hEven s.hOdd s.len s.frame s.hData else s.trc := rfl
@[simp] theorem complete_hOp (s : State) : (s.complete).hOp = 0 := rfl
@[simp] theorem complete_hBits (s : State) : (s.complete).hBits = 0 := rfl
@[simp] theorem complete_hData (s : State) : (s.complete).hData = 0 := rfl
@[simp] theorem complete_hPv (s : State) : (s.complete).hPv = 0 := rfl
@[simp] theorem complete_hEven (s : State) : (s.complete).hEven = 0 := rfl
@[simp] theorem complete_hOdd (s : State) : (s.complete).hOdd = 0 := rfl
@[simp] theorem complete_cfg (s : State) : (s.complete).cfg = s.cfg := rfl
@[simp] theorem complete_host (s : State) : (s.complete).host = s.host := rfl
@[simp] theorem complete_edge (s : State) : (s.complete).edge = s.edge := rfl

@[simp] theorem code3Arm_st (s : State) : (code3Arm s).st = .idle := rfl
@[simp] theorem code3Arm_frame (s : State) : (code3Arm s).frame = s.frame := rfl
@[simp] theorem code3Arm_len (s : State) : (code3Arm s).len = s.len := rfl
@[simp] theorem code3Arm_idx (s : State) : (code3Arm s).idx = s.idx := rfl
@[simp] theorem code3Arm_cnt (s : State) : (code3Arm s).cnt = 0 := rfl
@[simp] theorem code3Arm_d0 (s : State) : (code3Arm s).d0 = HIGH := rfl
@[simp] theorem code3Arm_d1 (s : State) : (code3Arm s).d1 = HIGH := rfl
@[simp] theorem code3Arm_oe (s : State) : (code3Arm s).oe = s.oe := rfl
@[simp] theorem code3Arm_resetSeen (s : State) : (code3Arm s).resetSeen = s.resetSeen := rfl
@[simp] theorem code3Arm_dbg (s : State) : (code3Arm s).dbg = s.dbg := rfl
@[simp] theorem code3Arm_res (s : State) : (code3Arm s).res = s.res := rfl
@[simp] theorem code3Arm_lastLen (s : State) : (code3Arm s).lastLen = s.lastLen := rfl
@[simp] theorem code3Arm_done (s : State) : (code3Arm s).done = s.done := rfl
@[simp] theorem code3Arm_trcV (s : State) : (code3Arm s).trcV = s.trcV := rfl
@[simp] theorem code3Arm_trc (s : State) : (code3Arm s).trc = s.trc := rfl
@[simp] theorem code3Arm_hOp (s : State) : (code3Arm s).hOp = s.hOp := rfl
@[simp] theorem code3Arm_hBits (s : State) : (code3Arm s).hBits = s.hBits := rfl
@[simp] theorem code3Arm_hData (s : State) : (code3Arm s).hData = s.hData := rfl
@[simp] theorem code3Arm_hPv (s : State) : (code3Arm s).hPv = s.hPv := rfl
@[simp] theorem code3Arm_hEven (s : State) : (code3Arm s).hEven = s.hEven := rfl
@[simp] theorem code3Arm_hOdd (s : State) : (code3Arm s).hOdd = s.hOdd := rfl
@[simp] theorem code3Arm_cfg (s : State) : (code3Arm s).cfg = s.cfg := rfl
@[simp] theorem code3Arm_host (s : State) : (code3Arm s).host = s.host := rfl
@[simp] theorem code3Arm_edge (s : State) : (code3Arm s).edge = s.edge := rfl

end Sys2Proof.Machine
end

