-- ==== Sys2Proof/Laws/Timing.lean ====
section
/-! SUPPORT. What a well-formed configuration gives: the cycle counts are at least 1 and fit the phase counter. -/

namespace Sys2Proof

theorem le_two_pow_leastWidth (m : Nat) : m ≤ 2 ^ leastWidth m := by
  unfold leastWidth
  split
  · simpa using ‹m ≤ 1›
  · have h := Nat.lt_log2_self (n := m - 1)
    omega

theorem Config.pwCycles_le (c : Config) : c.pwCycles ≤ 2 ^ c.cntW :=
  (Nat.le_max_left ..).trans (le_two_pow_leastWidth _)

theorem Config.ipiCycles_le (c : Config) : c.ipiCycles ≤ 2 ^ c.cntW :=
  (Nat.le_max_right ..).trans (le_two_pow_leastWidth _)

/-- What `Config.wf` says of the clock and the pins. -/
theorem Config.wf_spec {c : Config} (h : c.wf = true) :
    c.wholeCycles = true ∧ c.inTolerance = true ∧ c.pinD0 ≠ c.pinD1 := by
  simpa [Config.wf, and_assoc] using h

/-- What whole cycle counts say (R9). -/
theorem Config.wholeCycles_spec {c : Config} (h : c.wholeCycles = true) :
    c.pwCycles * 1000000 = 50 * c.fClkHz ∧ c.ipiCycles * 1000000 = 1000 * c.fClkHz ∧ 1 ≤ c.pwCycles ∧ 1 ≤ c.ipiCycles := by
  simp only [Config.wholeCycles, Bool.and_eq_true, beq_iff_eq, decide_eq_true_eq] at h
  simp only [Config.pwCycles, Config.ipiCycles, pwUs, ipiUs] at h ⊢
  omega

theorem Config.pwCycles_pos {c : Config} (h : c.wf = true) : 1 ≤ c.pwCycles :=
  (Config.wholeCycles_spec (Config.wf_spec h).1).2.2.1

theorem Config.ipiCycles_pos {c : Config} (h : c.wf = true) : 1 ≤ c.ipiCycles :=
  (Config.wholeCycles_spec (Config.wf_spec h).1).2.2.2

end Sys2Proof
end

