-- ==== Sys2Proof/Laws/Ops.lean ====
section
/-! SUPPORT. One lemma for each shared operation that says once everything it does; later proofs cite them. -/

namespace Sys2Proof.Machine

/-- The frame's length for each format (R115). -/
theorem buildFrame_len (data : Credential) (fmt : Format) : (buildFrame data fmt).len.toNat = formatBits fmt := by
  cases fmt <;> rfl

theorem buildFrame_len_eq (data : Credential) (fmt : Format) :
    (buildFrame data fmt).len = 26 ∨ (buildFrame data fmt).len = 34 ∨ (buildFrame data fmt).len = 40 := by
  cases fmt <;> simp [buildFrame, parityFrame]

/-- The index of the first bit. -/
theorem buildFrame_idx (data : Credential) (fmt : Format) :
    ((buildFrame data fmt).len - 1).toNat = formatBits fmt - 1 := by
  cases fmt <;> simp [buildFrame, parityFrame, formatBits]

theorem formatBits_pos (fmt : Format) : 0 < formatBits fmt := by cases fmt <;> decide

theorem formatBits_le (fmt : Format) : formatBits fmt ≤ 40 := by cases fmt <;> decide

/-- The first bit of a frame is read from the frame register, never from a free value. -/
theorem frameBit_first (edge : Nat) (data : Credential) (fmt : Format) :
    frameBit edge (buildFrame data fmt).frame ((buildFrame data fmt).len - 1).toNat =
      BitVec.ofBool ((buildFrame data fmt).frame.getLsbD (formatBits fmt - 1)) := by
  rw [buildFrame_idx, frameBit_lt]
  have := formatBits_le fmt
  have := formatBits_pos fmt
  omega

/-- DriveLow from idle lines is a pulse for its bit (R94, R39). -/
theorem driveLow_pulses {s : State} (b : Bit) (h : s.d0 = HIGH ∧ s.d1 = HIGH) :
    ((s.driveLow b).d0 = if b = 0 then LOW else HIGH) ∧ ((s.driveLow b).d1 = if b = 1 then LOW else HIGH) := by
  simp [h.1, h.2]

/-- Everything `State.accept` does (R120): the line of the frame's first bit goes LOW. -/
theorem accept_eq (op : BitVec 4) (fmt : Format) (data : Credential) (s : State) :
    s.accept op fmt data =
      { s with frame := (buildFrame data fmt).frame, len := (buildFrame data fmt).len
               idx := (buildFrame data fmt).len - 1, cnt := 0, st := .pulse
               d0 := bif (buildFrame data fmt).frame.getLsbD (formatBits fmt - 1) then s.d0 else LOW
               d1 := bif (buildFrame data fmt).frame.getLsbD (formatBits fmt - 1) then LOW else s.d1
               res := .noResult, lastLen := (buildFrame data fmt).len
               hOp := op, hBits := formatCode fmt, hData := data, hPv := (buildFrame data fmt).pv
               hEven := (buildFrame data fmt).even, hOdd := (buildFrame data fmt).odd } := by
  simp only [State.accept, State.driveLow, frameBit_first, ite_ofBool_zero, ite_ofBool_one]

/-- The index of the next bit. -/
theorem idx_sub_one {x : BitVec 6} (h : x ≠ 0) : (x - 1).toNat = x.toNat - 1 := by
  have : x.toNat ≠ 0 := fun h0 => h (BitVec.eq_of_toNat_eq (by simpa using h0))
  bv_omega

theorem idx_pos {x : BitVec 6} (h : x ≠ 0) : 0 < x.toNat :=
  Nat.pos_of_ne_zero fun h0 => h (BitVec.eq_of_toNat_eq (by simpa using h0))

/-- Everything `State.nextBit` does (R93): the line of `frame[idx - 1]` goes LOW. -/
theorem nextBit_eq {s : State} (h : s.idx ≠ 0) (hi : s.idx.toNat ≤ 40) :
    s.nextBit =
      { s with idx := s.idx - 1, cnt := 0, st := .pulse
               d0 := bif s.frame.getLsbD (s.idx.toNat - 1) then s.d0 else LOW
               d1 := bif s.frame.getLsbD (s.idx.toNat - 1) then LOW else s.d1 } := by
  have hp := idx_pos h
  have hb : frameBit s.edge s.frame (s.idx - 1).toNat = BitVec.ofBool (s.frame.getLsbD (s.idx.toNat - 1)) := by
    rw [idx_sub_one h, frameBit_lt]
    omega
  simp only [State.nextBit, State.driveLow, hb, ite_ofBool_zero, ite_ofBool_one]

/-- Inside a phase the counter does not wrap (R92). -/
theorem tick_cnt_lt {s : State} {n : Nat} (hn : n ≤ 2 ^ s.cfg.cntW) (h : s.cnt < n) (hl : s.cnt ≠ n - 1) :
    s.tick.cnt = s.cnt + 1 := by
  rw [tick_cnt, Nat.mod_eq_of_lt]
  omega

/-- The PULSE arm ends the pulse or counts (R92). -/
theorem pulseArm_cases (s : State) :
    (s.cnt = s.cfg.pwCycles - 1 ∧ pulseArm s = s.startGap) ∨ (s.cnt ≠ s.cfg.pwCycles - 1 ∧ pulseArm s = s.tick) := by
  unfold pulseArm
  split
  · exact .inl ⟨‹_›, rfl⟩
  · exact .inr ⟨‹_›, rfl⟩

/-- The GAP arm counts, starts the next bit or completes the command (R93). -/
theorem gapArm_cases (s : State) :
    (s.cnt ≠ s.cfg.ipiCycles - 1 ∧ gapArm s = s.tick) ∨
    (s.cnt = s.cfg.ipiCycles - 1 ∧ s.idx ≠ 0 ∧ gapArm s = s.nextBit) ∨
    (s.cnt = s.cfg.ipiCycles - 1 ∧ s.idx = 0 ∧ gapArm s = s.complete) := by
  unfold gapArm
  split
  · exact .inl ⟨‹_›, rfl⟩
  · split
    · exact .inr (.inl ⟨not_not.mp ‹_›, ‹_›, rfl⟩)
    · exact .inr (.inr ⟨not_not.mp ‹_›, not_not.mp ‹_›, rfl⟩)

end Sys2Proof.Machine
end

