-- ==== Sys2Proof/Laws/PerInstr.lean ====
section
/-! SUPPORT. Per instruction: the OP field of its word is the OP value of R71. -/

namespace Sys2Proof.Laws.OpField

/-- The OP field of a command's word is its OP value. -/
def Statement (i : Instr) : Prop := cmdOp (encode i) = i.op

theorem send (h : Header) (opa opb : BitVec 32) : Statement (.send h opa opb) := encode_op _

theorem send26 (h : Header) (opaHi : BitVec 24) (fc : BitVec 8) (opbHi cn : BitVec 16) :
    Statement (.send26 h opaHi fc opbHi cn) := encode_op _

theorem send34 (h : Header) (opaHi fc opbHi cn : BitVec 16) : Statement (.send34 h opaHi fc opbHi cn) := encode_op _

theorem sendEm4100 (h : Header) (opaHi : BitVec 24) (version : BitVec 8) (cardId : BitVec 32) :
    Statement (.sendEm4100 h opaHi version cardId) := encode_op _

theorem reserved0 (h : Header) (opa opb : BitVec 32) : Statement (.reserved0 h opa opb) := encode_op _

theorem reserved5 (h : Header) (opa opb : BitVec 32) : Statement (.reserved5 h opa opb) := encode_op _

theorem reserved6to7 (low : BitVec 1) (h : Header) (opa opb : BitVec 32) :
    Statement (.reserved6to7 low h opa opb) := encode_op _

theorem reserved8toF (low : BitVec 3) (h : Header) (opa opb : BitVec 32) :
    Statement (.reserved8toF low h opa opb) := encode_op _

end Sys2Proof.Laws.OpField
end

