-- ==== Sys2Proof/Laws/Step.lean ====
section
/-! SUPPORT. What one command and one edge can do, said once: every invariant is derived from `exec_cases` and
`clockEdge_cases`. -/

namespace Sys2Proof.Machine

/-- A command is accepted or rejected: the meanings do one of the two and nothing else (R165). -/
theorem exec_cases (i : Instr) (s : State) :
    (∃ op fmt data, exec i s = .next (s.accept op fmt data)) ∨
    (∃ code op bits data, exec i s = .next (s.raise code op bits data)) := by
  cases i with
  | send h opa opb =>
    simp only [exec, execSend]
    split
    · exact .inl ⟨_, _, _, rfl⟩
    · exact .inr ⟨_, _, _, _, rfl⟩
  | send26 => exact .inl ⟨_, _, _, rfl⟩
  | send34 => exact .inl ⟨_, _, _, rfl⟩
  | sendEm4100 => exact .inl ⟨_, _, _, rfl⟩
  | reserved0 => exact .inr ⟨_, _, _, _, rfl⟩
  | reserved5 => exact .inr ⟨_, _, _, _, rfl⟩
  | reserved6to7 => exact .inr ⟨_, _, _, _, rfl⟩
  | reserved8toF => exact .inr ⟨_, _, _, _, rfl⟩

/-- What an edge can do: reset, wait in IDLE, accept, reject, or one of the three arms (R37, R165). -/
theorem clockEdge_cases (inp : Inputs) (s : State) :
    (inp.rst = 1 ∧ clockEdge inp s = .next (s.resetEdge inp.debugEn)) ∨
    (inp.rst = 0 ∧ s.st = .idle ∧ (inp.cmdValid = 0 ∨ s.resetSeen = false) ∧ clockEdge inp s = .next s.edgeDefaults) ∨
    (inp.rst = 0 ∧ s.st = .idle ∧ (inp.cmdValid = 1 ∧ s.resetSeen = true) ∧ clockEdge inp s = exec (fetch inp) s.edgeDefaults) ∨
    (inp.rst = 0 ∧ s.st = .pulse ∧ clockEdge inp s = .next (pulseArm s.edgeDefaults)) ∨
    (inp.rst = 0 ∧ s.st = .gap ∧ clockEdge inp s = .next (gapArm s.edgeDefaults)) ∨
    (inp.rst = 0 ∧ s.st = .code3 ∧ clockEdge inp s = .next (code3Arm s.edgeDefaults)) := by
  rcases bit_cases inp.rst with hr | hr
  · rcases hs : s.st with _ | _ | _ | _
    · rcases bit_cases inp.cmdValid with hv | hv <;> rcases hq : s.resetSeen with _ | _ <;> simp [clockEdge, hr, hs, hv, hq]
    all_goals simp [clockEdge, hr, hs]
  · simp [clockEdge, hr]

/-- A step with a well-formed configuration is an edge with the sampled inputs. -/
theorem step_eq {s : State} (h : s.cfg.wf = true) : step s = clockEdge s.sample s.advance := by
  simp [step, edgeStep, h]

/-- A step that answers a next state had a well-formed configuration (R9). -/
theorem wf_of_step {s t : State} (h : step s = .next t) : s.cfg.wf = true := by
  by_contra hw
  simp [step, edgeStep, hw] at h

/-- What a step can do, said once: a reset edge, waiting, acceptance, rejection, or one of the three arms. -/
theorem step_cases {s t : State} (h : step s = .next t) :
    (s.sample.rst = 1 ∧ t = s.advance.resetEdge s.sample.debugEn) ∨
    (s.sample.rst = 0 ∧ s.st = .idle ∧ (s.sample.cmdValid = 0 ∨ s.resetSeen = false) ∧ t = s.advance.edgeDefaults) ∨
    (s.offered ∧ ∃ op fmt data, t = s.advance.edgeDefaults.accept op fmt data) ∨
    (s.offered ∧ ∃ code op bits data, t = s.advance.edgeDefaults.raise code op bits data) ∨
    (s.sample.rst = 0 ∧ s.st = .pulse ∧ t = pulseArm s.advance.edgeDefaults) ∨
    (s.sample.rst = 0 ∧ s.st = .gap ∧ t = gapArm s.advance.edgeDefaults) ∨
    (s.sample.rst = 0 ∧ s.st = .code3 ∧ t = code3Arm s.advance.edgeDefaults) := by
  rw [step_eq (wf_of_step h)] at h
  rcases clockEdge_cases s.sample s.advance with c | c | c | c | c | c
  · rw [c.2] at h
    cases h
    exact .inl ⟨c.1, rfl⟩
  · rw [c.2.2.2] at h
    cases h
    exact .inr (.inl ⟨c.1, c.2.1, c.2.2.1, rfl⟩)
  · have ho : s.offered := ⟨c.2.1, c.1, c.2.2.1.1, c.2.2.1.2⟩
    rw [c.2.2.2] at h
    rcases exec_cases (fetch s.sample) s.advance.edgeDefaults with ⟨op, fmt, data, e⟩ | ⟨code, op, bits, data, e⟩ <;>
      rw [e] at h <;> cases h
    · exact .inr (.inr (.inl ⟨ho, op, fmt, data, rfl⟩))
    · exact .inr (.inr (.inr (.inl ⟨ho, code, op, bits, data, rfl⟩)))
  · rw [c.2.2] at h
    cases h
    exact .inr (.inr (.inr (.inr (.inl ⟨c.1, c.2.1, rfl⟩))))
  · rw [c.2.2] at h
    cases h
    exact .inr (.inr (.inr (.inr (.inr (.inl ⟨c.1, c.2.1, rfl⟩)))))
  · rw [c.2.2] at h
    cases h
    exact .inr (.inr (.inr (.inr (.inr (.inr ⟨c.1, c.2.1, rfl⟩)))))

/-- `takesCommand` is IDLE after a reset edge. -/
theorem takesCommand_iff (s : State) : s.takesCommand = true ↔ s.st = .idle ∧ s.resetSeen = true := by
  simp [State.takesCommand]

section
variable {s : State} {rest : List HostAct}

/-- Raw levels are what is sampled. -/
theorem sample_drive {i : Inputs} (h : s.host = .drive i :: rest) : s.sample = i := by
  simp [State.sample, h, hostEdge]

theorem advance_host_drive {i : Inputs} (h : s.host = .drive i :: rest) : s.advance.host = rest := by
  simp [h, hostEdge]

/-- A command line offers its word. -/
theorem sample_command {w : CmdWord} (h : s.host = .command w :: rest) : s.sample = offerInputs w := by
  simp [State.sample, h, hostEdge]

theorem advance_host_command {w : CmdWord} (h : s.host = .command w :: rest) :
    s.advance.host = if s.takesCommand then rest else s.host := by
  simp [h, hostEdge]

end

/-- Running one edge and then `n` more, in any machine that answers a next state. -/
theorem core_run_next (M : Host.Core) (n : Nat) {s t : M.State} (h : M.step s = .next t) : M.run (n + 1) s = M.run n t := by
  rw [Host.Core.run, h]

/-- `runEdges` is the host's run of this machine, as long as every step answers a next state. -/
theorem core_run_eq {n : Nat} {s t : State} (h : runEdges n s = .next t) : Host.Core.run Sys2Proof.core n s = .next t := by
  induction n generalizing s with
  | zero => exact h
  | succ n ih =>
    rw [runEdges] at h
    rcases hu : step s with u | r | r <;> rw [hu] at h
    · exact (core_run_next Sys2Proof.core n hu).trans (ih h)
    · cases h
    · cases h

/-- Running `m + n` edges is running `m` and then `n`. -/
theorem runEdges_add {s t : State} {m : Nat} (n : Nat) (h : runEdges m s = .next t) :
    runEdges (m + n) s = runEdges n t := by
  induction m generalizing s with
  | zero =>
    simp only [runEdges, Host.Outcome.next.injEq] at h
    simp [h]
  | succ m ih =>
    rw [Nat.add_right_comm, runEdges]
    rw [runEdges] at h
    rcases hu : step s with u | r | r <;> rw [hu] at h
    · exact ih h
    · cases h
    · cases h

/-- One more edge. -/
theorem runEdges_succ {s t u : State} {m : Nat} (h : runEdges m s = .next t) (ht : step t = .next u) :
    runEdges (m + 1) s = .next u := by
  rw [runEdges_add 1 h]
  simp [runEdges, ht]

end Sys2Proof.Machine
end

