-- ==== Sys2Proof/Laws/Run.lean ====
section
/-! SUPPORT. Runs under given inputs: one edge, and the edges inside one phase, during which only the counter and
the model's own fields move (40_pulse.md R92, R93). -/

namespace Sys2Proof.Machine

/-- One edge under given levels. -/
theorem step_drive {s : State} {i : Inputs} {rest : List HostAct} (hw : s.cfg.wf = true) (h : s.host = .drive i :: rest) :
    step s = clockEdge i { s with host := rest, edge := s.edge + 1 } := by
  rw [step_eq hw, sample_drive h]
  congr 1
  simp [State.advance, h, hostEdge]

/-- Edges inside a pulse, without a reset: the pulse goes on. -/
theorem runEdges_pulse (n : Nat) (s : State) (ins : List Inputs) (rest : List HostAct) (hw : s.cfg.wf = true)
    (hs : s.st = .pulse) (hh : s.host = ins.map .drive ++ rest) (hl : ins.length = n) (hr : ∀ i ∈ ins, i.rst = 0)
    (hc : s.cnt + n < s.cfg.pwCycles) (h1 : s.done = 0) (h2 : s.trcV = 0) (h3 : s.trc = 0) :
    runEdges n s = .next { s with cnt := s.cnt + n, host := rest, edge := s.edge + n } := by
  induction n generalizing s ins with
  | zero =>
    obtain rfl : ins = [] := List.length_eq_zero_iff.1 hl
    simp only [List.map_nil, List.nil_append] at hh
    simp [runEdges, ← hh]
  | succ n ih =>
    obtain ⟨i, ins, rfl⟩ := List.exists_cons_of_length_eq_add_one hl
    have hr0 := hr i (by simp)
    have e : step s = .next { s with cnt := s.cnt + 1, host := ins.map .drive ++ rest, edge := s.edge + 1 } := by
      have lpw := Config.pwCycles_le s.cfg
      have hm : (s.cnt + 1) % 2 ^ s.cfg.cntW = s.cnt + 1 := Nat.mod_eq_of_lt (by omega)
      have hne : s.cnt ≠ s.cfg.pwCycles - 1 := by omega
      rw [step_drive hw hh]
      simp [clockEdge, hr0, hs, pulseArm, hne, State.tick, State.edgeDefaults, hm, h1, h2, h3]
    have h := ih { s with cnt := s.cnt + 1, host := ins.map .drive ++ rest, edge := s.edge + 1 } ins hw hs rfl
      (by simpa using hl) (fun i hi => hr i (by simp [hi])) (by simp only; omega) h1 h2 h3
    simp only [runEdges, e, h, Host.Outcome.next.injEq, State.mk.injEq, true_and]
    omega

/-- Edges inside an interval, without a reset: the interval goes on. -/
theorem runEdges_gap (n : Nat) (s : State) (ins : List Inputs) (rest : List HostAct) (hw : s.cfg.wf = true)
    (hs : s.st = .gap) (hh : s.host = ins.map .drive ++ rest) (hl : ins.length = n) (hr : ∀ i ∈ ins, i.rst = 0)
    (hc : s.cnt + n < s.cfg.ipiCycles) (h1 : s.done = 0) (h2 : s.trcV = 0) (h3 : s.trc = 0) :
    runEdges n s = .next { s with cnt := s.cnt + n, host := rest, edge := s.edge + n } := by
  induction n generalizing s ins with
  | zero =>
    obtain rfl : ins = [] := List.length_eq_zero_iff.1 hl
    simp only [List.map_nil, List.nil_append] at hh
    simp [runEdges, ← hh]
  | succ n ih =>
    obtain ⟨i, ins, rfl⟩ := List.exists_cons_of_length_eq_add_one hl
    have hr0 := hr i (by simp)
    have e : step s = .next { s with cnt := s.cnt + 1, host := ins.map .drive ++ rest, edge := s.edge + 1 } := by
      have lip := Config.ipiCycles_le s.cfg
      have hm : (s.cnt + 1) % 2 ^ s.cfg.cntW = s.cnt + 1 := Nat.mod_eq_of_lt (by omega)
      have hne : s.cnt ≠ s.cfg.ipiCycles - 1 := by omega
      rw [step_drive hw hh]
      simp [clockEdge, hr0, hs, gapArm, hne, State.tick, State.edgeDefaults, hm, h1, h2, h3]
    have h := ih { s with cnt := s.cnt + 1, host := ins.map .drive ++ rest, edge := s.edge + 1 } ins hw hs rfl
      (by simpa using hl) (fun i hi => hr i (by simp [hi])) (by simp only; omega) h1 h2 h3
    simp only [runEdges, e, h, Host.Outcome.next.injEq, State.mk.injEq, true_and]
    omega

end Sys2Proof.Machine
end

