-- ==== Sys2Proof/Tests/Slice0.lean ====
section
/-! SUPPORT. The model's own tests: expected values from spec/95_test_vectors.md (each test names its vector) or worked out
by hand from the rules; and for each statement a witness that its hypotheses can be met. -/

namespace Sys2Proof.Tests

open Sys2Proof Sys2Proof.Machine

/-! ## Well-formedness: each check refuses an ill-formed term -/

def zeroHeader : Header := { bits := 0, wfc := 0, rsv := 0 }

theorem test_wf_rsv : (Instr.send { bits := 26, wfc := 0, rsv := 1 } 0 0).flaw = some .rsvSet := by decide
theorem test_wf_header_bits : (Instr.send26 { bits := 26, wfc := 0, rsv := 0 } 0 1 0 1).flaw = some .unusedHeaderSet := by decide
theorem test_wf_header_wfc : (Instr.sendEm4100 { bits := 0, wfc := 1, rsv := 0 } 0 1 1).flaw = some .unusedHeaderSet := by decide
theorem test_wf_operand_send26 : (Instr.send26 zeroHeader 0 1 1 1).flaw = some .unusedOperandSet := by decide
theorem test_wf_operand_send34 : (Instr.send34 zeroHeader 1 1 0 1).flaw = some .unusedOperandSet := by decide
theorem test_wf_operand_em4100 : (Instr.sendEm4100 zeroHeader 1 1 1).flaw = some .unusedOperandSet := by decide
theorem test_wf_reserved : (Instr.reserved8toF 7 zeroHeader 0 0).flaw = some .reservedOp := by decide
theorem test_wf_illegal_bits_is_legal : (Instr.send { bits := 32, wfc := 1, rsv := 0 } 0 0).wf = true := by decide

/-! ## Decoding: words written out from R70 (vectors D1 to D18) -/

/-- D3: OP 1, BITS 26, WFC 0, RSV all ones. -/
theorem test_decode_send : decodeWord 0x11A7FFFF00000000007BCDEF#96 =
    .send { bits := 26, wfc := 0, rsv := 0x7FFFF } 0 0x007BCDEF := by decide
/-- D13: every ignored bit of SEND26 set. -/
theorem test_decode_send26 : decodeWord 0x21AFFFFFFFFFFF7BFFFFCDEF#96 =
    .send26 { bits := 26, wfc := 1, rsv := 0x7FFFF } 0xFFFFFF 0x7B 0xFFFF 0xCDEF := by decide
/-- D16. -/
theorem test_decode_send34 : decodeWord 0x30000000FFFF38ABFFFFCDEF#96 =
    .send34 zeroHeader 0xFFFF 0x38AB 0xFFFF 0xCDEF := by decide
/-- D18. -/
theorem test_decode_em4100 : decodeWord 0x40000000FFFFFF0112345678#96 =
    .sendEm4100 zeroHeader 0xFFFFFF 0x01 0x12345678 := by decide
/-- D11: OP 0 with BITS 32. -/
theorem test_decode_reserved0 : decodeWord 0x020000000000000000000000#96 =
    .reserved0 { bits := 32, wfc := 0, rsv := 0 } 0 0 := by decide
/-- D9. -/
theorem test_decode_reserved5 : decodeWord 0x51A00000000000000007BCDEF#96 = decodeWord 0x1A00000000000000007BCDEF#96 ∧
    decodeWord 0x51A0000000000000007BCDEF#96 = .reserved5 { bits := 26, wfc := 0, rsv := 0 } 0 0x007BCDEF := by decide
theorem test_decode_reserved7 : decodeWord 0x700000000000000100000002#96 = .reserved6to7 1 zeroHeader 1 2 := by decide
/-- D10. -/
theorem test_decode_reserved15 : decodeWord 0xF00000000000000000000000#96 = .reserved8toF 7 zeroHeader 0 0 := by decide
theorem test_decode_too_long : decode 97 0 = .error .longerThanOneCommand := by decide
/-- W1. -/
theorem test_table_word : decodeTableWord 96 0x200000000000007B0000CDEF =
    some (.send26 zeroHeader 0 123 0 52719) := by decide

/-- D2, D6, D7, D14: the verdicts. -/
theorem test_verdicts : classify 0x11A8000000000000007BCDEF#96 = .accept 1 .f26 0x7BCDEF ∧
    classify 0x1200000000000000007BCDEF#96 = .reject .errFormat ∧
    classify 0x128000000000000112345678#96 = .accept 1 .f40 0x0112345678 ∧
    classify 0x220000000000007B0000CDEF#96 = .accept 2 .f26 0x7BCDEF := by decide
/-- D8 to D11. -/
theorem test_verdicts_reserved : classify 0#96 = .reject .errOp ∧ classify 0x51A0000000000000007BCDEF#96 = .reject .errOp ∧
    classify 0xF00000000000000000000000#96 = .reject .errOp ∧ classify 0x020000000000000000000000#96 = .reject .errOp := by
  decide

/-! ## Parity and frames -/

/-- PA4, PA6 and PA7 of 24 bits, and the odd width with `d = 0b101`. -/
theorem test_parity24 : evenParity 0x800000#24 = 1 ∧ oddParity 0x800000#24 = 1 ∧ evenParity 0x001000#24 = 1 ∧
    evenParity 0x000800#24 = 0 ∧ oddParity 0x000800#24 = 0 ∧ evenParity 0b101#3 = 1 ∧ oddParity 0b101#3 = 0 := by decide
/-- PA10, PA15, PA16 of 32 bits. -/
theorem test_parity32 : evenParity 0x38ABCDEF#32 = 0 ∧ oddParity 0x38ABCDEF#32 = 1 ∧ evenParity 0x00010000#32 = 1 ∧
    oddParity 0x00008000#32 = 0 := by decide
/-- FB4, FB6, FB10. -/
theorem test_frame26 : (buildFrame 0x800000 .f26).frame = 0x3000001 ∧ (buildFrame 0x001000 .f26).frame = 0x2002001 ∧
    buildFrame 0xFF7BCDEF .f26 = { frame := 0x0F79BDF, len := 26, pv := 1, even := 0, odd := 1 } := by decide
/-- FB11, FB16, FB17. -/
theorem test_frame34 : (buildFrame 0x38ABCDEF .f34).frame = 0x071579BDF ∧ (buildFrame 0x10000 .f34).frame = 0x200020001 ∧
    (buildFrame 0x8000 .f34).frame = 0x10000 := by decide
/-- FB19. -/
theorem test_frame40 : buildFrame 0xFFFFFF0112345678 .f40 =
    { frame := 0x0112345678, len := 40, pv := 0, even := 0, odd := 0 } := by decide

/-! ## Configurations (vectors K1 to K4) -/

def clock (hz : Nat) : Config := { Config.standard with fClkHz := hz }

theorem test_k1 : (clock 1000000).pwCycles = 50 ∧ (clock 1000000).ipiCycles = 1000 ∧ (clock 1000000).cntW = 10 := by decide
theorem test_k2 : (clock 2000000).pwCycles = 100 ∧ (clock 2000000).ipiCycles = 2000 ∧ (clock 2000000).cntW = 11 := by decide
theorem test_k3 : (clock 20000).pwCycles = 1 ∧ (clock 20000).ipiCycles = 20 ∧ (clock 20000).cntW = 5 := by decide
theorem test_k4_refused : (clock 30000).wf = false := by decide
/-- U1 of 93_implementation_defined.md. -/
theorem test_one_pin_refused : ({ Config.standard with pinD1 := 0 } : Config).wf = false := by decide

/-! ## Small states -/

/-- After reset, with the host about to do `acts`. -/
def hosted (acts : List HostAct) : State := { State.reset with host := acts }

/-- The host drives these levels, and is quiet after. -/
def driven (i : Inputs) : State := hosted [.drive i, .delay 9]

/-- In the frame of W1, on bit `idx`, `cnt` cycles into a pulse, with the host quiet. -/
def pulsing (idx : BitVec 6) (cnt : Nat) : State :=
  { State.reset with
    st := .pulse, frame := 0x0F79BDF, len := 26, idx := idx, cnt := cnt
    d0 := if (0x0F79BDF#40).getLsbD idx.toNat then HIGH else LOW
    d1 := if (0x0F79BDF#40).getLsbD idx.toNat then LOW else HIGH
    lastLen := 26, hOp := 2, hBits := 26, hData := 0x7BCDEF, hPv := 1, hEven := 0, hOdd := 1, host := [.delay 9] }

/-- In the interval after that bit. -/
def gapping (idx : BitVec 6) (cnt : Nat) : State := { pulsing idx cnt with st := .gap, d0 := HIGH, d1 := HIGH }

/-- FSM code 3, with both lines LOW. -/
def upset : State := { pulsing 3 7 with st := .code3, d0 := LOW, d1 := LOW }

/-! ## Commands, one edge each -/

def word26 : CmdWord := 0x200000000000007B0000CDEF#96

/-- S1, C1: BUSY, LAST_LEN 26, the first pulse on D0. -/
theorem test_send26 : (nextOf (step (hosted [.command word26]))).map (fun t => (statusWord t, t.d0, t.d1, t.frame, t.idx)) =
    some (0x00D1, 0, 1, 0x0F79BDF, 25) := by decide
/-- C4: the first pulse on D1. -/
theorem test_send26_even_bit : (nextOf (exec (.send26 zeroHeader 0 0 0 0x1000) State.reset)).map (fun t => (t.d0, t.d1, t.hEven)) =
    some (1, 0, 1) := by decide
/-- C6. -/
theorem test_send34 : (nextOf (exec (.send34 zeroHeader 0 0x8000 0 0) State.reset)).map (fun t => (t.frame, t.len, t.d1)) =
    some (0x300000001, 34, 0) := by decide
/-- C9: forty pulses on D1, no parity. -/
theorem test_em4100 : (nextOf (exec (.sendEm4100 zeroHeader 0 255 0xFFFFFFFF) State.reset)).map
    (fun t => (t.frame, t.hPv, t.d0, t.d1)) = some (0xFFFFFFFFFF, 0, 1, 0) := by decide
/-- S3, W6: format 40 through SEND, OPA[7:0] included. -/
theorem test_send_40 : (nextOf (exec (.send { bits := 40, wfc := 0, rsv := 0 } 1 0x12345678) State.reset)).map
    (fun t => (t.frame, t.lastLen, t.d0)) = some (0x0112345678, 40, 0) := by decide
/-- S4, TR9: rejected, no line moves, the trace record with `dbg = 1`. -/
theorem test_send_rejected : (nextOf (exec (.send { bits := 32, wfc := 0, rsv := 0 } 0 0x7BCDEF) { State.reset with dbg := 1 })).map
    (fun t => (t.st, t.d0, t.done, t.res, t.trc)) =
    some (.idle, 1, 1, .errFormat, 0x848000000000000000000000007BCDEF) := by decide
/-- TR12. -/
theorem test_reserved0 : (nextOf (exec (decodeWord 0) { State.reset with dbg := 1 })).map (fun t => (statusWord t, t.trc)) =
    some (0x0206, 0xC0000000000000000000000000000000) := by decide
/-- TR14. -/
theorem test_reserved5 : (nextOf (exec (decodeWord 0x51A0000000000000007BCDEF#96) { State.reset with dbg := 1 })).map (·.trc) =
    some 0xD46800000000000000000000007BCDEF := by decide
/-- R162 with OP 7: KIND 11, OP 0111. -/
theorem test_reserved7 : (nextOf (exec (decodeWord 0x700000000000000000000000#96) { State.reset with dbg := 1 })).map (·.trc) =
    some 0xDC000000000000000000000000000000 := by decide
/-- TR13. -/
theorem test_reserved15 : (nextOf (exec (decodeWord 0xFFF00000FFFFFFFFFFFFFFFF#96) { State.reset with dbg := 1 })).map (·.trc) =
    some 0xFFFC000000000000FFFFFFFFFFFFFFFF := by decide
/-- The word placed by withFetchWord runs, from a busy state too (log 12). -/
theorem test_fetch_word : (nextOf (step ((gapping 7 0).withFetchWord 96 0x30000000000038AB0000CDEF))).map (fun t => (t.frame, t.hOp)) =
    some (0x071579BDF, 3) := by decide

/-! ## The timing controller (vectors T1 to T8) and reset (RS2, RS4, P5) -/

theorem test_t1 : (nextOf (step (pulsing 25 0))).map (fun t => (t.st, t.cnt, t.d0)) = some (.pulse, 1, 0) := by decide
theorem test_t2 : (nextOf (step (pulsing 25 49))).map (fun t => (t.st, t.cnt, t.d0, t.d1)) = some (.gap, 0, 1, 1) := by decide
theorem test_t4 : (nextOf (step (gapping 7 998))).map (fun t => (t.st, t.cnt, t.idx)) = some (.gap, 999, 7) := by decide
/-- T5: `frame[6] = 1`. -/
theorem test_t5 : (nextOf (step (gapping 7 999))).map (fun t => (t.st, t.cnt, t.idx, t.d0, t.d1)) =
    some (.pulse, 0, 6, 1, 0) := by decide
/-- T6, on the bit before a 0: `frame[5] = 0`. -/
theorem test_t6 : (nextOf (step (gapping 6 999))).map (fun t => (t.idx, t.d0, t.d1)) = some (5, 0, 1) := by decide
/-- T7. -/
theorem test_t7 : (nextOf (step (gapping 0 999))).map (fun t => (t.st, t.res, t.done, t.frame, t.len, t.hData)) =
    some (.idle, .ok, 1, 0, 0, 0) := by decide
/-- TR2: the record of the frame just sent. -/
theorem test_trace_complete : (nextOf (step { gapping 0 999 with dbg := 1 })).map (fun t => (t.trcV, t.trc)) =
    some (1, 0x486AB40001EF37BE00000000007BCDEF) := by decide
/-- T8. -/
theorem test_t8 : (nextOf (step upset)).map (fun t => (t.st, t.cnt, t.d0, t.d1, t.frame)) =
    some (.idle, 0, 1, 1, 0x0F79BDF) := by decide
/-- RS2, RS4, P5: a reset in a pulse with a command offered. -/
theorem test_reset_wins : (nextOf (step { pulsing 23 18 with host := [.drive ⟨1, 1, 1, word26⟩] })).map
    (fun t => (t.st, t.d0, t.d1, statusWord t, t.done)) = some (.idle, 1, 1, 0x0200, 0) := by decide
/-- R184: before the first reset edge a block that is IDLE accepts nothing, and the host keeps its command. -/
theorem test_offer_before_reset : (nextOf (step { hosted [.command word26] with resetSeen := false })).map
    (fun t => (t.st, t.res, t.host)) = some (.idle, .noResult, [.command word26]) := by decide
/-- The first reset edge makes the block take commands (R184). -/
theorem test_first_reset : (nextOf (step { upset with resetSeen := false, host := [.reset 0] })).map
    (fun t => (t.st, t.resetSeen)) = some (.idle, true) := by decide
/-- H1: a command offered while busy is kept by the host. -/
theorem test_offer_waits : (nextOf (step { gapping 7 3 with host := [.command word26] })).map (fun t => (t.host, t.cnt)) =
    some ([.command word26], 4) := by decide

/-! ## The assembler -/

/-- P5 as text. -/
theorem test_assemble : assemble "RESET 0\nSEND26 123, 52719 ; a card\nDELAY 2118\nWAIT_DONE\nCMD 0x51A00000_00000000_007BCDEF" =
    .ok [.reset 0, .command word26, .delay 2118, .waitDone, .command 0x51A0000000000000007BCDEF#96] := by decide
/-- R79: the refusal names the line. -/
theorem test_assemble_refuses : assemble "RESET 0\nSEND26 256, 0" = .error (2, .operandTooWide) := by decide

/-! ## Witnesses: the hypotheses of each statement can be met -/

def slow : Config := clock 20000

/-- A frame of 26 bits at the slowest clock, with the inputs of all its edges. -/
def sendSlow : State :=
  { State.reset with cfg := slow, host := (offerInputs word26 :: List.replicate 546 quietInputs).map .drive }

theorem witness_ResetEdgeWritesResetValues : (driven (resetInputs 1)).cfg.wf = true ∧ (driven (resetInputs 1)).sample.rst = 1 := by
  decide
theorem witness_ClockWellFormed : slow.wholeCycles = true ∧ 0 < slow.fClkHz := by decide
theorem witness_JitterBoundForTolerance : slow.wf = true ∧ slow.jitterNs ≤ 15000 ∧
    ({ slow with jitterNs := 15001 } : Config).wf = true := by decide
theorem witness_PinsCarryTheLines : State.reset.cfg.wf = true ∧ State.reset.oe = 1 ∧ (2 ≠ State.reset.cfg.pinD0) ∧
    (2 ≠ State.reset.cfg.pinD1) := by decide
theorem witness_StepAlwaysAnswers : State.reset.cfg.wf = true ∧ ({ State.reset with cfg := clock 30000 } : State).cfg.wf = false := by
  decide
theorem witness_StepRunsDecodedCommand : let s := hosted [.command word26]
    s.cfg.wf = true ∧ s.st = .idle ∧ s.sample.rst = 0 ∧ s.sample.cmdValid = 1 ∧ s.resetSeen = true := by decide
theorem witness_OfferedWordRunsNext : State.reset.cfg.wf = true ∧ decodeTableWord 96 0 = some (.reserved0 zeroHeader 0 0) ∧
    decodeTableWord 96 (2 ^ 96 - 1) = some (.reserved8toF 7 { bits := 255, wfc := 1, rsv := 0x7FFFF } 0xFFFFFFFF 0xFFFFFFFF) := by
  decide
theorem witness_IdleWaits : let s := hosted [.delay 1]
    s.cfg.wf = true ∧ s.st = .idle ∧ s.sample.rst = 0 ∧ s.sample.cmdValid = 0 := by decide
theorem witness_IdleWaits_unreset : let s := { hosted [.command word26] with resetSeen := false }
    s.cfg.wf = true ∧ s.st = .idle ∧ s.sample.rst = 0 ∧ s.sample.cmdValid = 1 ∧ s.resetSeen = false := by decide
theorem witness_PulseArmOfStep : ∀ c ∈ [48, 49], let s := pulsing 25 c
    s.cfg.wf = true ∧ s.st = .pulse ∧ s.sample.rst = 0 ∧ s.cnt < s.cfg.pwCycles := by decide
theorem witness_PulseArmOfStep_clauses : (pulsing 25 49).cnt = (pulsing 25 49).cfg.pwCycles - 1 ∧
    (pulsing 25 48).cnt ≠ (pulsing 25 48).cfg.pwCycles - 1 := by decide
theorem witness_GapArmOfStep : ∀ p ∈ [((1 : BitVec 6), 998), (1, 999), (40, 999), (0, 999)], let s := gapping p.1 p.2
    s.cfg.wf = true ∧ s.st = .gap ∧ s.sample.rst = 0 ∧ s.cnt < s.cfg.ipiCycles ∧ s.idx.toNat ≤ 40 := by decide
theorem witness_GapArmOfStep_clauses : (gapping 1 998).cnt ≠ 1000 - 1 ∧ (gapping 1 999).cnt = (gapping 1 999).cfg.ipiCycles - 1 ∧
    (gapping 1 999).idx ≠ 0 ∧ (gapping 0 999).idx = 0 := by decide
theorem witness_Code3Recovers : upset.cfg.wf = true ∧ upset.st = .code3 ∧ upset.sample.rst = 0 := by decide
theorem witness_UnsampledInputsHaveNoEffect : let a : Inputs := ⟨0, 1, 0, word26⟩
    a.rst = 0 ∧ quietInputs.rst = 0 ∧ (pulsing 0 0).st ≠ .idle ∧
    ({ pulsing 0 0 with resetSeen := false } : State).resetSeen = false ∧ a.cmdValid = 0 ∧ quietInputs.cmdValid = 0 := by decide
theorem witness_AcceptingEdge : (hosted [.command word26]).cfg.wf = true ∧
    (hosted [.command word26]).acceptsAt 2 .f26 0x7BCDEF := by
  refine ⟨by decide, ⟨by decide, by decide, by decide, by decide⟩, by decide⟩
theorem witness_RejectingEdge_format : (hosted [.command 0x120000000000000000000000#96]).rejectsAt .errFormat :=
  ⟨⟨by decide, by decide, by decide, by decide⟩, by decide⟩
theorem witness_RejectingEdge_op : (hosted [.command 0]).cfg.wf = true ∧ (hosted [.command 0]).rejectsAt .errOp :=
  ⟨by decide, ⟨by decide, by decide, by decide, by decide⟩, by decide⟩
theorem witness_completesAt : (gapping 0 999).cfg.wf = true ∧ (gapping 0 999).completesAt :=
  ⟨by decide, by decide, by decide, by decide, by decide⟩
/-- For the statements about who writes what: an edge that is none of the events. -/
theorem witness_noEvent : (gapping 1 999).sample.rst ≠ 1 ∧ ¬ (gapping 1 999).completesAt ∧ ¬ (gapping 1 999).offered :=
  ⟨by decide, fun h => absurd h.2.2.2 (by decide), fun h => absurd h.1 (by decide)⟩
theorem witness_OpcodeRowsPartitionWords : ∀ k < 8, (opcodeTable[k]?).isSome = true := by decide
theorem witness_IgnoredBitsChangeNothing : let v : CmdWord := 0x11A7FFFF00000000007BCDEF#96
    let w : CmdWord := 0x11A0000000000000007BCDEF#96
    v.extractLsb' 84 12 = w.extractLsb' 84 12 ∧ v.extractLsb' 0 64 = w.extractLsb' 0 64 := by decide
theorem witness_AssemblerFormsLegalWords : (∃ i, assembleCommand (.send26 255 65535) = .ok (some i)) ∧
    assembleCommand (.send26 256 0) = .error .operandTooWide ∧ assembleCommand (.send34 0 65536) = .error .operandTooWide ∧
    assembleCommand (.sendEm4100 255 (2 ^ 32)) = .error .operandTooWide ∧
    assembleCommand (.send (2 ^ 64) 26 0) = .error .operandTooWide ∧
    (Instr.send { bits := 255, wfc := 1, rsv := 0 } 0xFFFFFFFF 0).wf = true := ⟨⟨_, rfl⟩, by decide, by decide, by decide, by decide, by decide⟩
theorem witness_AssembledSendKeepsData : 2 ^ 64 - 1 < 2 ^ 64 ∧ 255 < 256 ∧ 1 < 2 ∧ 65535 < 2 ^ 16 ∧ 2 ^ 32 - 1 < 2 ^ 32 ∧
    2 ^ 96 - 1 < 2 ^ 96 := by decide
/-- Ready in IDLE, not ready while sending, nor in IDLE at a reset. -/
theorem witness_OutputPortsShowRegisters : (hosted [.delay 1]).outputs.cmdReady = 1 ∧
    (pulsing 25 0).outputs.cmdReady = 0 ∧ (hosted [.reset 0]).outputs.cmdReady = 0 := by decide
/-- A state no run reaches, whose coming edge is a reset that turns the trace on. -/
theorem witness_ResetStateMeetsInvariant : let s := { upset with host := [.reset 1] }
    s.cfg.wf = true ∧ s.sample.rst = 1 ∧ s.sample.debugEn = 1 := by decide
theorem witness_SendAccepted : ∀ fmt ∈ [Format.f26, .f34, .f40],
    (Header.bits { bits := formatCode fmt, wfc := 1, rsv := 5 }).toNat = formatBits fmt := by decide
theorem witness_SendRejected : ∀ b ∈ [0#8, 25, 27, 32, 33, 35, 39, 41, 255], b.toNat ≠ 26 ∧ b.toNat ≠ 34 ∧ b.toNat ≠ 40 := by
  decide
theorem witness_CommandFrames :
    (∃ t, exec (.send26 zeroHeader 0 1 0 1) State.reset = .next t) ∧
    (∃ op fmt data, classify (encode (.send26 zeroHeader 0 1 0 1)) = .accept op fmt data) ∧
    (∃ t, exec (.reserved0 zeroHeader 0 0) State.reset = .next t) ∧
    (∃ code, classify (encode (.reserved0 zeroHeader 0 0)) = .reject code) ∧ State.reset.dbg = 0 :=
  ⟨⟨_, rfl⟩, ⟨2, .f26, 0x10001, by decide⟩, ⟨_, rfl⟩, ⟨.errOp, by decide⟩, by decide⟩
theorem witness_ConvenienceEqualsSend : Header.bits { bits := 26, wfc := 1, rsv := 0 } = 26 ∧
    Header.bits { bits := 34, wfc := 0, rsv := 0 } = 34 ∧ Header.bits { bits := 40, wfc := 0, rsv := 0 } = 40 := by decide
theorem witness_DataAboveFieldIgnored : (0xFF7BCDEF#64).extractLsb' 0 24 = (0x7BCDEF#64).extractLsb' 0 24 ∧
    (0xF38ABCDEF#64).extractLsb' 0 32 = (0x38ABCDEF#64).extractLsb' 0 32 ∧
    (0xFFFFFF0112345678#64).extractLsb' 0 40 = (0x0112345678#64).extractLsb' 0 40 := by decide
theorem witness_ParityFrameLayout : (Format.f26 = .f26 ∧ (24 : Nat) = 24) ∧ (Format.f34 = .f34 ∧ (32 : Nat) = 32) := by decide
/-- A state no run reaches, whose coming edge is a reset. -/
theorem witness_LinesSafeAfterReset : let s := { upset with host := [.reset 1] }
    s.cfg.wf = true ∧ s.sample.rst = 1 := by decide
/-- A state in mid-pulse meets the invariant, and steps. -/
theorem witness_StepKeepsInvariant : (pulsing 25 49).Inv ∧ ∃ t, step (pulsing 25 49) = .next t := by
  refine ⟨⟨by decide, by decide, by decide, fun h => absurd rfl h, fun _ => ⟨fun _ => by decide, fun h => absurd h (by decide)⟩,
    fun _ => by decide, fun h => absurd h (by decide), fun h => absurd h (by decide), fun _ => by decide, fun _ => by decide,
    fun _ => ⟨.f26, by decide, by decide⟩, fun h => absurd h (by decide), fun h => absurd h (by decide), by decide,
    fun _ => by decide⟩, _, rfl⟩
theorem witness_Wire : sendSlow.cfg.wf = true ∧ sendSlow.st = .idle ∧ sendSlow.resetSeen = true ∧ sendSlow.linesHigh ∧
    sendSlow.drivenBy (offerInputs word26 :: List.replicate 546 quietInputs) ∧ (offerInputs word26).rst = 0 ∧
    (offerInputs word26).cmdValid = 1 ∧ classify (offerInputs word26).cmd = .accept 2 .f26 0x7BCDEF ∧
    (List.replicate 546 quietInputs).length = formatBits .f26 * sendSlow.cfg.period ∧
    (∀ i ∈ List.replicate 546 quietInputs, i.rst = 0) := by
  refine ⟨by decide, by decide, by decide, ⟨by decide, by decide⟩, ⟨[], by rw [List.append_nil]; rfl⟩, by decide, by decide, by decide, ?_, ?_⟩
  · rw [List.length_replicate]
    decide
  · intro i hi
    rw [List.eq_of_mem_replicate hi]
    decide
theorem witness_LeftoverState : State.sameWire State.reset { State.reset with res := .errOp, lastLen := 40, done := 1, dbg := 1 } := by
  refine ⟨rfl, rfl, rfl, rfl, rfl, rfl, rfl, rfl, rfl, rfl, rfl⟩
theorem witness_Diagnostics : (gapping 0 999).cfg.wf = true ∧ State.sameButTrace (gapping 0 999) { gapping 0 999 with dbg := 1 } :=
  ⟨by decide, rfl⟩
theorem witness_Op : State.sameButOp { gapping 0 999 with dbg := 1 } { gapping 0 999 with dbg := 1, hOp := 1 } :=
  ⟨rfl, rfl, rfl⟩
theorem witness_HostDirectives : (hosted [.command 0]).host = .command 0 :: [] ∧ (hosted [.command 0]).st = .idle ∧
    (hosted [.command 0]).resetSeen = true ∧
    ({ gapping 3 3 with host := [.command 0] } : State).st ≠ .idle ∧ (hosted [.reset 1]).host = .reset 1 :: [] ∧
    (hosted [.delay 1]).host = .delay (0 + 1) :: [] ∧ (hosted [.delay 0]).host = .delay 0 :: [] := by decide
theorem witness_WaitDoneWaits : (hosted [.waitDone]).done ≠ 1 ∧
    ({ hosted [.waitDone] with done := 1 } : State).done = 1 := by decide

end Sys2Proof.Tests
end

