-- ==== Sys2Proof/Proofs/Timing.lean ====
section
/-! PROOFS. The clock's parameters (00_scope.md R8, R9): the phase counter's width is least, and the clocks with whole
cycle counts are the positive multiples of 20 000 Hz. -/

namespace Sys2Proof

/-- `leastWidth m` is a lower bound of the widths that hold `m`: with `le_two_pow_leastWidth`, the least of them. -/
theorem leastWidth_le {m w : Nat} (h : m ≤ 2 ^ w) : leastWidth m ≤ w := by
  unfold leastWidth
  split
  next => exact Nat.zero_le w
  next hm =>
    have hlog : (m - 1).log2 < w := (Nat.log2_lt (by omega)).2 (by omega)
    exact hlog

theorem Config.pwCycles_of_clock_eq {c : Config} {k : Nat} (h : c.fClkHz = 20000 * k) : c.pwCycles = k := by
  simp only [Config.pwCycles, pwUs]
  omega

theorem Config.ipiCycles_of_clock_eq {c : Config} {k : Nat} (h : c.fClkHz = 20000 * k) : c.ipiCycles = 20 * k := by
  simp only [Config.ipiCycles, ipiUs]
  omega

/-- R9: whole cycle counts force `F_CLK_HZ = 20000 * PW_CYCLES`, and any clock `20000 * k` has the counts `k` and
`20 * k`. -/
theorem Config.wholeCycles_iff (c : Config) : c.wholeCycles = true ↔ 0 < c.fClkHz ∧ 20000 ∣ c.fClkHz := by
  constructor
  · intro h
    obtain ⟨hpw, -, hpos, -⟩ := Config.wholeCycles_spec h
    have hclk : c.fClkHz = 20000 * c.pwCycles := by omega
    exact ⟨by omega, c.pwCycles, hclk⟩
  · rintro ⟨hpos, k, hk⟩
    simp only [Config.wholeCycles, Bool.and_eq_true, beq_iff_eq, decide_eq_true_eq,
      Config.pwCycles_of_clock_eq hk, Config.ipiCycles_of_clock_eq hk, pwUs, ipiUs]
    omega

/-- R9: whole cycle counts give a pulse of 50 µs and an interval of 1000 µs, which the tolerance admits. -/
theorem Config.inTolerance_of_wholeCycles {c : Config} (h : c.wholeCycles = true) : c.inTolerance = true := by
  obtain ⟨hpw, hipi, -, -⟩ := Config.wholeCycles_spec h
  simp only [Config.inTolerance, Bool.and_eq_true, decide_eq_true_eq]
  omega

/-- Settles O4: `leastWidth` bounds the larger count, and is below every width that does. -/
theorem counterWidthIsLeast : Obligations.CounterWidthIsLeast :=
  fun _ => ⟨le_two_pow_leastWidth _, fun _ => leastWidth_le⟩

/-- Settles O3: whole cycle counts characterise the clock, imply the tolerance, and fix the durations. -/
theorem clockWellFormedExactly : Obligations.ClockWellFormedExactly := by
  intro c
  have htol : (c.wholeCycles = true ∧ c.inTolerance = true) ↔ c.wholeCycles = true :=
    and_iff_left_of_imp Config.inTolerance_of_wholeCycles
  refine ⟨htol.trans c.wholeCycles_iff, c.wholeCycles_iff, fun h => ?_⟩
  obtain ⟨hpw, hipi, -, -⟩ := Config.wholeCycles_spec h
  exact ⟨hpw, hipi⟩

end Sys2Proof
end

