-- ==== Sys2Proof/Proofs/Edge.lean ====
section
/-! PROOFS. What one edge does, by the event that causes it: the meanings of `exec` read off the decoder's verdict
(30_encoding.md R76), an equation of `clockEdge` per arm (10_state.md R37), and the transitions of `step`. -/

namespace Sys2Proof.Machine

/-! ## The accept arm, by the verdict on the word -/

/-- `AcceptArm` on the word's verdict (R37, R120, R121): `exec_decodeWord` says that this is what `exec` does. -/
def State.perform (w : CmdWord) (s : State) : State :=
  match classify w with
  | .accept op fmt data => s.accept op fmt data
  | .reject code => s.raise code (cmdOp w) (cmdBits w) (w.extractLsb' 0 64)

theorem perform_of_accept {w : CmdWord} {op : BitVec 4} {fmt : Format} {data : Credential}
    (h : classify w = .accept op fmt data) (s : State) : s.perform w = s.accept op fmt data := by
  simp [State.perform, h]

theorem perform_of_reject {w : CmdWord} {code : RejectCode} (h : classify w = .reject code) (s : State) :
    s.perform w = s.raise code (cmdOp w) (cmdBits w) (w.extractLsb' 0 64) := by
  simp [State.perform, h]

theorem cmdOp_eq_ofNat {w : CmdWord} {k : Nat} (h : (cmdOp w).toNat = k) : cmdOp w = BitVec.ofNat 4 k := by
  simp [← h]

/-- OP 6 and 7 are `011` above OP[0]. -/
theorem cmdOp_of_six_or_seven {w : CmdWord} (h : (cmdOp w).toNat = 6 ∨ (cmdOp w).toNat = 7) :
    cmdOp w = 0b011#3 ++ w.extractLsb' 92 1 := by
  have hop : ∀ x : BitVec 4, x.toNat = 6 ∨ x.toNat = 7 → x = 0b011#3 ++ x.extractLsb' 0 1 := by decide
  have hlow : (cmdOp w).extractLsb' 0 1 = w.extractLsb' 92 1 := extractLsb'_part w 92 4 0 1 (by decide)
  simpa only [hlow] using hop (cmdOp w) h

/-- OP 8 to 15 are `1` above OP[2:0]. -/
theorem cmdOp_of_eight_le {w : CmdWord} (h : 8 ≤ (cmdOp w).toNat) : cmdOp w = 0b1#1 ++ w.extractLsb' 92 3 := by
  have hop : ∀ x : BitVec 4, 8 ≤ x.toNat → x = 0b1#1 ++ x.extractLsb' 0 3 := by decide
  have hlow : (cmdOp w).extractLsb' 0 3 = w.extractLsb' 92 3 := extractLsb'_part w 92 4 0 3 (by decide)
  simpa only [hlow] using hop (cmdOp w) h

/-- Every OP but 1 to 4 is reserved. -/
theorem classify_of_reserved {w : CmdWord} (h : (cmdOp w).toNat = 0 ∨ 5 ≤ (cmdOp w).toNat) :
    classify w = .reject .errOp := by
  have hne : ∀ k, k = 1 ∨ k = 2 ∨ k = 3 ∨ k = 4 → cmdOp w ≠ BitVec.ofNat 4 k := by
    rintro k hk he
    rw [he, BitVec.toNat_ofNat] at h
    omega
  simp [classify, hne]

/-- R76: the meaning of a decoded word is what the decoder's verdict on the word asks for. -/
theorem exec_decodeWord (w : CmdWord) (s : State) : exec (decodeWord w) s = .next (s.perform w) := by
  have hpart := fun lo len lo' len' => extractLsb'_part w lo len lo' len'
  unfold decodeWord
  split
  next h =>
    rw [perform_of_reject (classify_of_reserved (.inl h)), cmdOp_eq_ofNat h, cmdData_eq]
    rfl
  next h =>
    cases hf : Format.ofBits (cmdBits w) <;>
      simp [exec, execSend, State.perform, classify, cmdOp_eq_ofNat h, cmdHeader, hf, packSend, cmdData_eq]
  next h =>
    simp [exec, execSend26, State.perform, classify, cmdOp_eq_ofNat h, packSend26, cmdOpa, cmdOpb, hpart]
  next h =>
    simp [exec, execSend34, State.perform, classify, cmdOp_eq_ofNat h, packSend34, cmdOpa, cmdOpb, hpart]
  next h =>
    simp [exec, execSendEm4100, State.perform, classify, cmdOp_eq_ofNat h, packEm4100, cmdOpa, cmdOpb, hpart]
  next h =>
    rw [perform_of_reject (classify_of_reserved (.inr h.ge)), cmdOp_eq_ofNat h, cmdData_eq]
    rfl
  next h =>
    rw [perform_of_reject (classify_of_reserved (by omega)), cmdOp_of_six_or_seven (.inl h), cmdData_eq]
    rfl
  next h =>
    rw [perform_of_reject (classify_of_reserved (by omega)), cmdOp_of_six_or_seven (.inr h), cmdData_eq]
    rfl
  next =>
    have h : 8 ≤ (cmdOp w).toNat := by
      simp only [imp_false] at *
      omega
    rw [perform_of_reject (classify_of_reserved (by omega)), cmdOp_of_eight_le h, cmdData_eq]
    rfl

/-! ## `clockEdge`, arm by arm -/

section
variable {inp : Inputs} {s : State}

theorem clockEdge_reset (hr : inp.rst = 1) : clockEdge inp s = .next (s.resetEdge inp.debugEn) := by
  simp [clockEdge, hr]

theorem clockEdge_wait (hr : inp.rst = 0) (hs : s.st = .idle) (hn : inp.cmdValid = 0 ∨ s.resetSeen = false) :
    clockEdge inp s = .next s.edgeDefaults := by
  have hno : ¬ (inp.cmdValid = 1 ∧ s.resetSeen = true) := by
    rintro ⟨hv, hseen⟩
    rcases hn with h | h
    · simp [h] at hv
    · simp [h] at hseen
  simp only [clockEdge, hr, hs, if_neg hno]
  rfl

theorem clockEdge_take (hr : inp.rst = 0) (hs : s.st = .idle) (hv : inp.cmdValid = 1) (hseen : s.resetSeen = true) :
    clockEdge inp s = exec (decodeWord inp.cmd) s.edgeDefaults := by
  simp [clockEdge, hr, hs, hv, hseen, fetch]

theorem clockEdge_pulse (hr : inp.rst = 0) (hs : s.st = .pulse) :
    clockEdge inp s = .next (pulseArm s.edgeDefaults) := by
  simp [clockEdge, hr, hs]

theorem clockEdge_gap (hr : inp.rst = 0) (hs : s.st = .gap) : clockEdge inp s = .next (gapArm s.edgeDefaults) := by
  simp [clockEdge, hr, hs]

theorem clockEdge_code3 (hr : inp.rst = 0) (hs : s.st = .code3) :
    clockEdge inp s = .next (code3Arm s.edgeDefaults) := by
  simp [clockEdge, hr, hs]

end

/-! ## The transitions of a step -/

/-- What one edge does, by its event (R37, R165): `step_transition` says that every step is one of these. -/
inductive Transition (s : State) : State → Prop where
  | reset (hr : s.sample.rst = 1) : Transition s (s.advance.resetEdge s.sample.debugEn)
  | wait (hr : s.sample.rst = 0) (hs : s.st = .idle) (hn : ¬ s.offered) : Transition s s.advance.edgeDefaults
  | accept {op : BitVec 4} {fmt : Format} {data : Credential} (h : s.acceptsAt op fmt data) :
      Transition s (s.advance.edgeDefaults.accept op fmt data)
  | reject {code : RejectCode} (h : s.rejectsAt code) :
      Transition s (s.advance.edgeDefaults.raise code (cmdOp s.sample.cmd) (cmdBits s.sample.cmd)
        (s.sample.cmd.extractLsb' 0 64))
  | tickPulse (hr : s.sample.rst = 0) (hs : s.st = .pulse) (hc : s.cnt ≠ s.cfg.pwCycles - 1) :
      Transition s s.advance.edgeDefaults.tick
  | startGap (hr : s.sample.rst = 0) (hs : s.st = .pulse) (hc : s.cnt = s.cfg.pwCycles - 1) :
      Transition s s.advance.edgeDefaults.startGap
  | tickGap (hr : s.sample.rst = 0) (hs : s.st = .gap) (hc : s.cnt ≠ s.cfg.ipiCycles - 1) :
      Transition s s.advance.edgeDefaults.tick
  | nextBit (hr : s.sample.rst = 0) (hs : s.st = .gap) (hc : s.cnt = s.cfg.ipiCycles - 1) (hi : s.idx ≠ 0) :
      Transition s s.advance.edgeDefaults.nextBit
  | complete (h : s.completesAt) : Transition s s.advance.edgeDefaults.complete
  | recover (hr : s.sample.rst = 0) (hs : s.st = .code3) : Transition s (code3Arm s.advance.edgeDefaults)

/-- An edge that takes a command accepts or rejects it, as the verdict on the word says. -/
theorem transition_of_offered {s : State} (ho : s.offered) :
    Transition s (s.advance.edgeDefaults.perform s.sample.cmd) := by
  cases hv : classify s.sample.cmd with
  | accept op fmt data =>
    rw [perform_of_accept hv]
    exact .accept ⟨ho, hv⟩
  | reject code =>
    rw [perform_of_reject hv]
    exact .reject ⟨ho, hv⟩

/-- R9, R37: with a well-formed configuration a step answers a next state, by one of the transitions. -/
theorem step_transition {s : State} (hw : s.cfg.wf = true) : ∃ t, step s = .next t ∧ Transition s t := by
  rw [step_eq hw]
  rcases clockEdge_cases s.sample s.advance with
    ⟨hr, e⟩ | ⟨hr, hs, hn, e⟩ | ⟨hr, hs, ⟨hv, hseen⟩, e⟩ | ⟨hr, hs, e⟩ | ⟨hr, hs, e⟩ | ⟨hr, hs, e⟩
  · exact ⟨_, e, .reset hr⟩
  · refine ⟨_, e, .wait hr hs ?_⟩
    rintro ⟨-, -, hv, hseen⟩
    rcases hn with h | h
    · simp [h] at hv
    · rw [advance_resetSeen] at h
      simp [h] at hseen
  · exact ⟨_, e.trans (exec_decodeWord _ _), transition_of_offered ⟨hs, hr, hv, hseen⟩⟩
  · rcases pulseArm_cases s.advance.edgeDefaults with ⟨hc, ha⟩ | ⟨hc, ha⟩ <;> rw [ha] at e
    · exact ⟨_, e, .startGap hr hs hc⟩
    · exact ⟨_, e, .tickPulse hr hs hc⟩
  · rcases gapArm_cases s.advance.edgeDefaults with ⟨hc, ha⟩ | ⟨hc, hi, ha⟩ | ⟨hc, hi, ha⟩ <;> rw [ha] at e
    · exact ⟨_, e, .tickGap hr hs hc⟩
    · exact ⟨_, e, .nextBit hr hs hc hi⟩
    · exact ⟨_, e, .complete ⟨hs, hr, hc, hi⟩⟩
  · exact ⟨_, e, .recover hr hs⟩

theorem transition_of_step {s t : State} (h : step s = .next t) : Transition s t := by
  obtain ⟨u, hu, htr⟩ := step_transition (wf_of_step h)
  cases h.symm.trans hu
  exact htr

end Sys2Proof.Machine
end

