-- ==== Sys2Proof/Proofs/Step.lean ====
section
/-! PROOFS. The step as a whole: it always answers, what each arm leaves (10_state.md R37), and the edge that takes the
command the host offers (R30, R184). -/

namespace Sys2Proof.Machine

/-- A step writes no parameter and counts one edge. -/
theorem cfg_edge_of_transition {s t : State} (htr : Transition s t) : t.cfg = s.cfg ∧ t.edge = s.edge + 1 := by
  cases htr <;> exact ⟨rfl, rfl⟩

/-- Settles O7, by the transitions of a step. -/
theorem stepAlwaysAnswers : Obligations.StepAlwaysAnswers := by
  refine fun s => ⟨fun hw => ?_, fun hw => by simp [step, edgeStep, hw]⟩
  obtain ⟨t, hst, htr⟩ := step_transition hw
  exact ⟨t, hst, cfg_edge_of_transition htr⟩

/-- A step at a reset edge (R180). -/
theorem step_reset {s : State} (hw : s.cfg.wf = true) (hr : s.sample.rst = 1) :
    step s = .next (s.advance.resetEdge s.sample.debugEn) := by
  rw [step_eq hw, clockEdge_reset hr]

/-- A step that takes the offered command (R30, R184). -/
theorem step_take {s : State} (hw : s.cfg.wf = true) (ho : s.offered) :
    step s = exec (decodeWord s.sample.cmd) s.advance.edgeDefaults := by
  obtain ⟨hs, hr, hv, hseen⟩ := ho
  exact (step_eq hw).trans (clockEdge_take hr hs hv hseen)

/-- A step that accepts a command (R120). -/
theorem step_accept {s : State} {op : BitVec 4} {fmt : Format} {data : Credential} (hw : s.cfg.wf = true)
    (h : s.acceptsAt op fmt data) : step s = .next (s.advance.edgeDefaults.accept op fmt data) := by
  rw [step_take hw h.1, exec_decodeWord, perform_of_accept h.2]

/-- A step that rejects a command (R121). -/
theorem step_reject {s : State} {code : RejectCode} (hw : s.cfg.wf = true) (h : s.rejectsAt code) :
    step s = .next (s.advance.edgeDefaults.raise code (cmdOp s.sample.cmd) (cmdBits s.sample.cmd)
      (s.sample.cmd.extractLsb' 0 64)) := by
  rw [step_take hw h.1, exec_decodeWord, perform_of_reject h.2]

/-- A step that completes a command (R93). -/
theorem step_complete {s : State} (hw : s.cfg.wf = true) (h : s.completesAt) :
    step s = .next s.advance.edgeDefaults.complete := by
  obtain ⟨hs, hr, hc, hi⟩ := h
  rw [step_eq hw, clockEdge_gap (s := s.advance) hr hs]
  simp [gapArm, hc, hi]

/-- Settles O8: the step takes the sampled command. -/
theorem stepRunsDecodedCommand : Obligations.StepRunsDecodedCommand :=
  fun _ hw hs hr hv hseen => step_take hw ⟨hs, hr, hv, hseen⟩

/-- Settles O10: the edge is R37's IDLE arm without acceptance. -/
theorem idleWaits : Obligations.IdleWaits :=
  fun _ hw hs hr hn => (step_eq hw).trans (clockEdge_wait hr hs hn)

/-- Settles O13: the edge is R37's arm for code 3. -/
theorem code3Recovers : Obligations.Code3Recovers :=
  fun _ hw hs hr => (step_eq hw).trans (clockEdge_code3 hr hs)

/-- A number that decodes as a table word decodes as the word the host offers for it. -/
theorem decodeWord_of_decodeTableWord {nbits w : Nat} {i : Instr} (h : decodeTableWord nbits w = some i) :
    decodeWord (BitVec.ofNat 96 (w % 2 ^ nbits)) = i := by
  unfold decodeTableWord decode at h
  split at h
  next j hj =>
    split at hj
    · cases h
      exact Except.ok.inj hj
    · cases hj
  next => cases h

/-- Settles O9: the offered word is sampled, the block takes it, and the host moves on to its other actions. -/
theorem offeredWordRunsNext : Obligations.OfferedWordRunsNext := by
  intro s nbits w i hw hi
  have hhost : (s.withFetchWord nbits w).host = .command (BitVec.ofNat 96 (w % 2 ^ nbits)) :: s.host := rfl
  have hsample := sample_command hhost
  have ho : (s.withFetchWord nbits w).offered := ⟨rfl, by rw [hsample]; rfl, by rw [hsample]; rfl, rfl⟩
  have hrest : (s.withFetchWord nbits w).advance.host = s.host := advance_host_command hhost
  rw [step_take (s := s.withFetchWord nbits w) hw ho, hsample, offerInputs, decodeWord_of_decodeTableWord hi]
  simp only [State.edgeDefaults, State.advance] at hrest ⊢
  congr 1

end Sys2Proof.Machine
end

