-- ==== Sys2Proof/Proofs/Invariant.lean ====
section
/-! PROOFS. The machine's invariant (10_state.md R38 to R40 and what the rules add): a reset edge establishes it, every
transition keeps it, so it holds in every cycle after a reset edge. -/

namespace Sys2Proof.Machine

/-! ## Lines and trace output -/

/-- R94: the levels that `DriveLow` leaves on idle lines are a pulse. -/
theorem pulses_of_levels {s : State} {b : Bool} (h0 : s.d0 = bif b then HIGH else LOW)
    (h1 : s.d1 = bif b then LOW else HIGH) : s.pulses (BitVec.ofBool b) := by
  cases b <;> simp [State.pulses, h0, h1]

/-- R38: a pulse leaves one line HIGH. -/
theorem not_bothLow_of_pulses {s : State} {b : Bit} (h : s.pulses b) : ¬ (s.d0 = LOW ∧ s.d1 = LOW) := by
  rintro ⟨h0, h1⟩
  rcases bit_cases b with hb | hb
  · exact absurd ((h.1 hb).2.symm.trans h1) (by decide)
  · exact absurd ((h.2 hb).1.symm.trans h0) (by decide)

/-- R169: over a quiet trace output, `trc_v` shows `dbg` after an emission. -/
theorem emit_trcV_of_quiet {s : State} (r : TraceWord) (hv : s.trcV = 0) : (s.emit r).trcV = 1 &&& s.dbg := by
  rcases bit_cases s.dbg with hb | hb <;> simp [hb, hv]

theorem emit_trc_of_quiet {s : State} {r : TraceWord} (ht : s.trc = 0) (h0 : (s.emit r).trcV = 0) :
    (s.emit r).trc = 0 := by
  rcases bit_cases s.dbg with hb | hb
  · simp [hb, ht]
  · simp [hb] at h0

/-! ## The invariant after each operation -/

/-- R180: a reset edge establishes the invariant. -/
theorem afterReset_inv (debugEn : Bit) (cfg : Config) (host : List HostAct) (edge : Nat) :
    (State.afterReset debugEn cfg host edge).Inv where
  wasReset := rfl
  legalFsm := by simp [State.afterReset]
  outputsOn := rfl
  linesQuiet _ := ⟨rfl, rfl⟩
  linePulsed := nofun
  cntPulse := nofun
  cntGap := nofun
  cntIdle _ := rfl
  lenSending := by rintro (h | h) <;> cases h
  statusSending := by rintro (h | h) <;> cases h
  holdSending := by rintro (h | h) <;> cases h
  clearedIdle _ := ⟨rfl, rfl, rfl, rfl, rfl, rfl, rfl, rfl, rfl⟩
  doneFinished h := absurd h (by simp [State.afterReset])
  traceWithDone := by simp [State.afterReset]
  traceQuiet _ := rfl

/-- R37: the host's moving on and the step's defaults keep the invariant. -/
theorem inv_edgeDefaults {s : State} (h : s.Inv) : s.advance.edgeDefaults.Inv where
  wasReset := h.wasReset
  legalFsm := h.legalFsm
  outputsOn := h.outputsOn
  linesQuiet := h.linesQuiet
  linePulsed := h.linePulsed
  cntPulse := h.cntPulse
  cntGap := h.cntGap
  cntIdle := h.cntIdle
  lenSending := h.lenSending
  statusSending hs := ⟨(h.statusSending hs).1, (h.statusSending hs).2.1, rfl⟩
  holdSending := h.holdSending
  clearedIdle := h.clearedIdle
  doneFinished hd := absurd hd (by simp)
  traceWithDone := by simp
  traceQuiet _ := rfl

section
variable {s : State} (h : s.Inv)
include h

/-- R40: the index of a frame in flight lies in the frame register. -/
theorem idx_le_of_inv (hs : s.sending) : s.idx.toNat ≤ 40 := by
  obtain ⟨hlen, hlt⟩ := h.lenSending hs
  rcases hlen with e | e | e <;> bv_omega

theorem inv_accept (op : BitVec 4) (fmt : Format) (data : Credential) (hw : s.cfg.wf = true) (hs : s.st = .idle)
    (hd : s.done = 0) : (s.accept op fmt data).Inv where
  wasReset := h.wasReset
  legalFsm := by simp
  outputsOn := h.outputsOn
  linesQuiet hp := absurd (accept_st ..) hp
  linePulsed _ := by
    obtain ⟨h0, h1⟩ := h.linesQuiet (by simp [hs])
    rw [accept_frame, accept_idx, buildFrame_idx]
    exact pulses_of_levels (by simp [accept_eq, h0]) (by simp [accept_eq, h1])
  cntPulse _ := Config.pwCycles_pos hw
  cntGap := nofun
  cntIdle := nofun
  lenSending _ := by
    rw [accept_len, accept_idx]
    rcases buildFrame_len_eq data fmt with e | e | e <;> rw [e] <;> decide
  statusSending _ := ⟨rfl, rfl, hd⟩
  holdSending _ := ⟨fmt, rfl, rfl⟩
  clearedIdle := nofun
  doneFinished h1 := by simp [hd] at h1
  traceWithDone := h.traceWithDone
  traceQuiet := h.traceQuiet

theorem inv_raise (code : RejectCode) (op : BitVec 4) (bits : BitVec 8) (data : Credential) (hs : s.st = .idle)
    (hv : s.trcV = 0) (ht : s.trc = 0) : (s.raise code op bits data).Inv where
  wasReset := h.wasReset
  legalFsm := h.legalFsm
  outputsOn := h.outputsOn
  linesQuiet := h.linesQuiet
  linePulsed := h.linePulsed
  cntPulse := h.cntPulse
  cntGap := h.cntGap
  cntIdle := h.cntIdle
  lenSending := h.lenSending
  statusSending := by simp [State.sending, hs]
  holdSending := h.holdSending
  clearedIdle := h.clearedIdle
  doneFinished _ := ⟨hs, by cases code <;> simp [rejectResult]⟩
  traceWithDone := emit_trcV_of_quiet 0 hv
  traceQuiet := emit_trc_of_quiet ht

/-- R92, R93: counting inside a phase, before its last cycle. -/
theorem inv_tick (hs : s.sending) (hp : s.st = .pulse → s.cnt ≠ s.cfg.pwCycles - 1)
    (hg : s.st = .gap → s.cnt ≠ s.cfg.ipiCycles - 1) : s.tick.Inv where
  wasReset := h.wasReset
  legalFsm := h.legalFsm
  outputsOn := h.outputsOn
  linesQuiet := h.linesQuiet
  linePulsed := h.linePulsed
  cntPulse hst := by
    have hc := h.cntPulse hst
    have hl := hp hst
    rw [tick_cnt_lt s.cfg.pwCycles_le hc hl, tick_cfg]
    omega
  cntGap hst := by
    have hc := h.cntGap hst
    have hl := hg hst
    rw [tick_cnt_lt s.cfg.ipiCycles_le hc hl, tick_cfg]
    omega
  cntIdle hst := by
    rw [tick_st] at hst
    simp [State.sending, hst] at hs
  lenSending := h.lenSending
  statusSending := h.statusSending
  holdSending := h.holdSending
  clearedIdle := h.clearedIdle
  doneFinished := h.doneFinished
  traceWithDone := h.traceWithDone
  traceQuiet := h.traceQuiet

theorem inv_startGap (hw : s.cfg.wf = true) (hs : s.st = .pulse) : s.startGap.Inv where
  wasReset := h.wasReset
  legalFsm := by simp
  outputsOn := h.outputsOn
  linesQuiet _ := ⟨rfl, rfl⟩
  linePulsed := nofun
  cntPulse := nofun
  cntGap _ := Config.ipiCycles_pos hw
  cntIdle := nofun
  lenSending _ := h.lenSending (.inl hs)
  statusSending _ := h.statusSending (.inl hs)
  holdSending _ := h.holdSending (.inl hs)
  clearedIdle := nofun
  doneFinished hd := absurd (h.doneFinished hd).1 (by simp [hs])
  traceWithDone := h.traceWithDone
  traceQuiet := h.traceQuiet

theorem inv_nextBit (hw : s.cfg.wf = true) (hs : s.st = .gap) (hi : s.idx ≠ 0) : s.nextBit.Inv where
  wasReset := h.wasReset
  legalFsm := by simp
  outputsOn := h.outputsOn
  linesQuiet hp := absurd (nextBit_st s) hp
  linePulsed _ := by
    obtain ⟨h0, h1⟩ := h.linesQuiet (by simp [hs])
    have hle : s.idx.toNat ≤ 40 := idx_le_of_inv h (.inr hs)
    rw [nextBit_frame, nextBit_idx, idx_sub_one hi]
    exact pulses_of_levels (by simp [nextBit_eq hi hle, h0]) (by simp [nextBit_eq hi hle, h1])
  cntPulse _ := Config.pwCycles_pos hw
  cntGap := nofun
  cntIdle := nofun
  lenSending _ := by
    obtain ⟨hlen, hlt⟩ := h.lenSending (.inr hs)
    refine ⟨hlen, ?_⟩
    rw [BitVec.lt_def] at hlt ⊢
    rw [nextBit_idx, nextBit_len, idx_sub_one hi]
    omega
  statusSending _ := h.statusSending (.inr hs)
  holdSending _ := h.holdSending (.inr hs)
  clearedIdle := nofun
  doneFinished hd := absurd (h.doneFinished hd).1 (by simp [hs])
  traceWithDone := h.traceWithDone
  traceQuiet := h.traceQuiet

theorem inv_complete (hs : s.st = .gap) (hi : s.idx = 0) (hv : s.trcV = 0) (ht : s.trc = 0) : s.complete.Inv where
  wasReset := h.wasReset
  legalFsm := by simp
  outputsOn := h.outputsOn
  linesQuiet _ := h.linesQuiet (by simp [hs])
  linePulsed := nofun
  cntPulse := nofun
  cntGap := nofun
  cntIdle _ := rfl
  lenSending := by simp [State.sending]
  statusSending := by simp [State.sending]
  holdSending := by simp [State.sending]
  clearedIdle _ := ⟨rfl, rfl, hi, rfl, rfl, rfl, rfl, rfl, rfl⟩
  doneFinished _ := ⟨rfl, by simp⟩
  traceWithDone := emit_trcV_of_quiet 0 hv
  traceQuiet := emit_trc_of_quiet ht

end

/-! ## The invariant along runs -/

/-- Every transition keeps the invariant. -/
theorem inv_transition {s t : State} (hw : s.cfg.wf = true) (h : s.Inv) (htr : Transition s t) : t.Inv := by
  have hq := inv_edgeDefaults h
  cases htr with
  | reset => exact afterReset_inv ..
  | wait => exact hq
  | accept ha => exact inv_accept hq _ _ _ hw ha.1.1 rfl
  | reject hj => exact inv_raise hq _ _ _ _ hj.1.1 rfl rfl
  | tickPulse hr hs hc => exact inv_tick hq (.inl hs) (fun _ => hc) (by simp [hs])
  | startGap hr hs hc => exact inv_startGap hq hw hs
  | tickGap hr hs hc => exact inv_tick hq (.inr hs) (by simp [hs]) (fun _ => hc)
  | nextBit hr hs hc hi => exact inv_nextBit hq hw hs hi
  | complete hc =>
    obtain ⟨hs, -, -, hi⟩ := hc
    exact inv_complete hq hs hi rfl rfl
  | recover hr hs => exact absurd hs h.legalFsm

/-- Settles O51, by the transitions of a step. -/
theorem stepKeepsInvariant : Obligations.StepKeepsInvariant :=
  fun _ _ h hst => inv_transition (wf_of_step hst) h (transition_of_step hst)

/-- Settles O50: a reset edge establishes the invariant. -/
theorem resetStateMeetsInvariant : Obligations.ResetStateMeetsInvariant :=
  ⟨afterReset_inv .., afterReset_inv, fun _ hw hr => ⟨_, step_reset hw hr, rfl, afterReset_inv ..⟩⟩

/-- From a state that meets the invariant, every run answers one that meets it. -/
theorem runEdges_inv (n : Nat) {s : State} (hw : s.cfg.wf = true) (h : s.Inv) :
    ∃ t, runEdges n s = .next t ∧ t.Inv := by
  induction n generalizing s with
  | zero => exact ⟨s, rfl, h⟩
  | succ n ih =>
    obtain ⟨u, hst, htr⟩ := step_transition hw
    have hwu : u.cfg.wf = true := by rwa [(cfg_edge_of_transition htr).1]
    simpa only [runEdges, hst] using ih hwu (inv_transition hw h htr)

/-- R38: the lines are never LOW together. -/
theorem not_bothLow_of_inv {s : State} (h : s.Inv) : ¬ (s.d0 = LOW ∧ s.d1 = LOW) := by
  by_cases hp : s.st = .pulse
  · exact not_bothLow_of_pulses (h.linePulsed hp)
  · obtain ⟨h0, -⟩ := h.linesQuiet hp
    simp [h0]

/-- R38: a LOW line means PULSE. -/
theorem pulse_of_low_of_inv {s : State} (h : s.Inv) (hlow : s.d0 = LOW ∨ s.d1 = LOW) : s.st = .pulse := by
  by_contra hp
  obtain ⟨h0, h1⟩ := h.linesQuiet hp
  simp [h0, h1] at hlow

/-- Settles O52: the reset edge establishes the invariant, and the run keeps it. -/
theorem linesSafeAfterReset : Obligations.LinesSafeAfterReset := by
  intro s n hw hr
  obtain ⟨t, hrun, h⟩ := runEdges_inv n (s := s.advance.resetEdge s.sample.debugEn) hw (afterReset_inv ..)
  have hquiet (hs : t.st = .idle ∨ t.st = .gap) : t.linesHigh := h.linesQuiet (by rcases hs with e | e <;> simp [e])
  refine ⟨t, by rw [runEdges, step_reset hw hr]; exact hrun, not_bothLow_of_inv h, pulse_of_low_of_inv h, fun hs => ?_,
    h.cntPulse, h.cntGap, h.lenSending, h.cntIdle, h.outputsOn, h.legalFsm, h.wasReset⟩
  exact ⟨(hquiet hs).1, (hquiet hs).2, h.outputsOn⟩

end Sys2Proof.Machine
end

