-- ==== Sys2Proof/Proofs/Registers.lean ====
section
/-! PROOFS. Who writes RESULT, LAST_LEN, `done` and the other registers (10_state.md R29, R32 to R34, R36, R44): the
value after each event by the step's equation for it, and that no other transition writes, by cases on the
transition. -/

namespace Sys2Proof.Machine

theorem res_kept {s t : State} (htr : Transition s t) (hr : s.sample.rst ≠ 1) (hc : ¬ s.completesAt)
    (ho : ¬ s.offered) : t.res = s.res := by
  cases htr with
  | reset h => exact absurd h hr
  | accept h => exact absurd h.1 ho
  | reject h => exact absurd h.1 ho
  | complete h => exact absurd h hc
  | _ => rfl

/-- Settles O45, event by event. -/
theorem resultWrittenOnlyBy : Obligations.ResultWrittenOnlyBy := by
  intro s hw
  obtain ⟨t, hst, htr⟩ := step_transition hw
  refine ⟨t, hst, fun h => ?_, fun op fmt data h => ?_, fun h => ?_, fun h => ?_, fun h => ?_, res_kept htr⟩
  · cases hst.symm.trans (step_reset hw h)
    rfl
  · cases hst.symm.trans (step_accept hw h)
    rfl
  · cases hst.symm.trans (step_complete hw h)
    rfl
  · cases hst.symm.trans (step_reject hw h)
    rfl
  · cases hst.symm.trans (step_reject hw h)
    rfl

theorem lastLen_kept {s t : State} (htr : Transition s t) (hr : s.sample.rst ≠ 1) (ho : ¬ s.offered) :
    t.lastLen = s.lastLen := by
  cases htr with
  | reset h => exact absurd h hr
  | accept h => exact absurd h.1 ho
  | reject h => exact absurd h.1 ho
  | _ => rfl

/-- Settles O46, event by event. -/
theorem lastLenWrittenOnlyBy : Obligations.LastLenWrittenOnlyBy := by
  intro s hw
  obtain ⟨t, hst, htr⟩ := step_transition hw
  refine ⟨t, hst, fun op fmt data h => ?_, fun code h => ?_, fun h => ?_, fun h => ?_, lastLen_kept htr⟩
  · cases hst.symm.trans (step_accept hw h)
    exact buildFrame_len data fmt
  · cases hst.symm.trans (step_reject hw h)
    rfl
  · cases hst.symm.trans (step_reset hw h)
    rfl
  · cases hst.symm.trans (step_complete hw h)
    rfl

/-- R32, R37: `done` after an edge is a completion's or a rejection's. -/
theorem done_iff_of_transition {s t : State} (hw : s.cfg.wf = true) (hst : step s = .next t) :
    t.done = 1 ↔ (s.completesAt ∨ ∃ code, s.rejectsAt code) := by
  constructor
  · intro hd
    cases transition_of_step hst with
    | complete h => exact .inl h
    | reject h => exact .inr ⟨_, h⟩
    | _ => simp at hd
  · rintro (h | ⟨code, h⟩)
    · cases hst.symm.trans (step_complete hw h)
      rfl
    · cases hst.symm.trans (step_reject hw h)
      rfl

/-- Settles O47, by the step of a completion, the step of a rejection, and the transitions. -/
theorem doneExactlyAfterFinish : Obligations.DoneExactlyAfterFinish := by
  intro s hw
  obtain ⟨t, hst, -⟩ := step_transition hw
  exact ⟨t, hst, done_iff_of_transition hw hst⟩

/-- R34, R44, R184: only a reset edge writes `dbg`, `oe` and the record of a reset edge. -/
theorem dbg_oe_resetSeen_kept {s t : State} (htr : Transition s t) (hr : s.sample.rst = 0) :
    t.dbg = s.dbg ∧ t.oe = s.oe ∧ t.resetSeen = s.resetSeen := by
  cases htr with
  | reset h => simp [hr] at h
  | _ => exact ⟨rfl, rfl, rfl⟩

/-- R36, R21: without a reset, an acceptance or a completion the command in flight is kept, and the index is kept or
moves to the next bit. -/
theorem flight_kept {s t : State} (htr : Transition s t) (hr : s.sample.rst = 0) (hc : ¬ s.completesAt)
    (ha : ∀ op fmt data, ¬ s.acceptsAt op fmt data) :
    t.hOp = s.hOp ∧ t.hBits = s.hBits ∧ t.hData = s.hData ∧ t.hPv = s.hPv ∧ t.hEven = s.hEven ∧ t.hOdd = s.hOdd ∧
      t.frame = s.frame ∧ t.len = s.len ∧ (t.idx = s.idx ∨ (s.idx ≠ 0 ∧ t.idx = s.idx - 1)) := by
  cases htr with
  | reset h => simp [hr] at h
  | accept h => exact absurd h (ha _ _ _)
  | complete h => exact absurd h hc
  | nextBit _ _ _ hi => exact ⟨rfl, rfl, rfl, rfl, rfl, rfl, rfl, rfl, .inr ⟨hi, rfl⟩⟩
  | _ => exact ⟨rfl, rfl, rfl, rfl, rfl, rfl, rfl, rfl, .inl rfl⟩

/-- Settles O49: what a reset edge and a completion write, and what every other transition keeps. -/
theorem otherRegistersWrittenOnlyBy : Obligations.OtherRegistersWrittenOnlyBy := by
  intro s hw
  obtain ⟨t, hst, htr⟩ := step_transition hw
  refine ⟨t, hst, fun h => ?_, fun h => ?_, dbg_oe_resetSeen_kept htr, flight_kept htr, fun h => ?_⟩
  · cases hst.symm.trans (step_reset hw h)
    rfl
  · cases hst.symm.trans (step_reset hw h)
    rfl
  · cases hst.symm.trans (step_complete hw h)
    exact ⟨rfl, rfl, rfl, rfl, rfl, rfl, rfl, rfl⟩

end Sys2Proof.Machine
end

