-- ==== Sys2Proof/Proofs/Ports.lean ====
section
/-! PROOFS. What the block shows: the fields of the status word and of a trace record, the output ports and the pins
(10_state.md R24, R28, R35, R42), and the reset values (R25). -/

namespace Sys2Proof.Machine

/-- R28: BUSY is `st != IDLE`. -/
theorem busy_eq_one_iff (st : Fsm) : busy st = 1 ↔ st ≠ .idle := by
  cases st <;> decide

/-- The low operand of a concatenation. -/
theorem extractLsb'_append_operand {m n : Nat} (x : BitVec m) (y : BitVec n) : (x ++ y).extractLsb' 0 n = y := by
  rw [extractLsb'_append_low _ _ _ _ (by omega), extractLsb'_whole]

theorem statusWord_busy_iff (s : State) : (statusWord s).extractLsb' 0 1 = 1 ↔ s.st ≠ .idle := by
  have hbusy : (statusWord s).extractLsb' 0 1 = busy s.st := extractLsb'_append_operand ..
  rw [hbusy, busy_eq_one_iff]

/-- Settles O42: past the operands below it, each field is the low operand of what is left. -/
theorem statusFields : Obligations.StatusFields := by
  intro s
  refine ⟨statusWord_busy_iff s, ?res, ⟨rfl, rfl, rfl, rfl⟩, ?lastLen, ?dbg, ?high⟩ <;> rw [statusWord] <;>
    repeat rw [extractLsb'_append_high _ _ _ _ (by decide)]
  case high => exact extractLsb'_whole _
  all_goals exact extractLsb'_append_operand ..

/-- Settles O44: past the operands below it, each field is the low operand of what is left. -/
theorem traceRecordFields : Obligations.TraceRecordFields := by
  intro kind op bits pv even odd len frame data
  refine ⟨?kind, ?op, ?bits, ?pv, ?even, ?odd, ?len, ?frame, ?zero, ?data⟩ <;> rw [traceRecord] <;>
    repeat rw [extractLsb'_append_high _ _ _ _ (by decide)]
  case kind => exact extractLsb'_whole _
  all_goals exact extractLsb'_append_operand ..

/-- R30: the equation of `cmd_ready`. -/
theorem cmdReady_eq_one_iff (s : State) : s.cmdReady = 1 ↔ s.st = .idle ∧ s.sample.rst = 0 := by
  unfold State.cmdReady
  split
  next h => exact iff_of_true rfl h
  next h => exact iff_of_false (by decide) h

/-- Settles O43: `cmd_ready` by R30's equation, every other port by the register it shows. -/
theorem outputPortsShowRegisters : Obligations.OutputPortsShowRegisters :=
  fun s => ⟨cmdReady_eq_one_iff s, rfl, rfl, rfl, rfl, rfl, statusWord_busy_iff s, rfl, rfl, rfl⟩

/-- Settles O6: the two pins of a well-formed configuration are distinct. -/
theorem pinsCarryTheLines : Obligations.PinsCarryTheLines := by
  intro s hw hoe
  obtain ⟨-, -, hpins⟩ := Config.wf_spec hw
  refine ⟨?_, ?_, fun p h0 h1 => ?_⟩
  · simp [State.pinLevel, hoe]
  · simp [State.pinLevel, hoe, hpins.symm]
  · simp [State.pinLevel, hoe, h0, h1]

/-- Settles O2: every value is read off `State.reset`. -/
theorem resetStateHoldsResetValues : Obligations.ResetStateHoldsResetValues := by
  unfold Obligations.ResetStateHoldsResetValues
  decide

end Sys2Proof.Machine
end

