-- ==== Sys2Proof/Proofs/Wire.lean ====
section
/-! PROOFS. What cannot reach the wire (10_state.md R41): each operation of an edge takes states with the same
transmission to states with the same transmission. -/

namespace Sys2Proof.Machine

section
variable {s t : State} (h : s.sameWire t)
include h

/-- What chooses the arm of an edge and its branch is part of the transmission. -/
theorem phase_eq_of_sameWire :
    s.st = t.st ∧ s.idx = t.idx ∧ s.cnt = t.cnt ∧ s.cfg = t.cfg ∧ s.resetSeen = t.resetSeen := by
  obtain ⟨hst, -, -, hidx, hcnt, -, -, -, hcfg, hseen, -⟩ := h
  exact ⟨hst, hidx, hcnt, hcfg, hseen⟩

theorem sameWire_edgeDefaults : s.edgeDefaults.sameWire t.edgeDefaults := h

theorem sameWire_resetEdge (b : Bit) : (s.resetEdge b).sameWire (t.resetEdge b) := by
  obtain ⟨-, -, -, -, -, -, -, -, hcfg, -, hedge⟩ := h
  simp [State.sameWire, hcfg, hedge]

/-- The parts of the transmission that the accept and reject branches of `AcceptArm` leave alone carry over. -/
theorem sameWire_perform (w : CmdWord) : (s.perform w).sameWire (t.perform w) := by
  cases hv : classify w with
  | accept op fmt data =>
    obtain ⟨-, -, -, -, -, hd0, hd1, hoe, hcfg, hseen, hedge⟩ := h
    simp [perform_of_accept hv, State.sameWire, hd0, hd1, hoe, hcfg, hseen, hedge]
  | reject code =>
    rw [perform_of_reject hv, perform_of_reject hv]
    exact h

theorem sameWire_tick : s.tick.sameWire t.tick := by
  obtain ⟨hst, hframe, hlen, hidx, hcnt, hd0, hd1, hoe, hcfg, hseen, hedge⟩ := h
  simp [State.sameWire, hst, hframe, hlen, hidx, hcnt, hd0, hd1, hoe, hcfg, hseen, hedge]

theorem sameWire_startGap : s.startGap.sameWire t.startGap := by
  obtain ⟨-, hframe, hlen, hidx, -, -, -, hoe, hcfg, hseen, hedge⟩ := h
  simp [State.sameWire, hframe, hlen, hidx, hoe, hcfg, hseen, hedge]

theorem sameWire_nextBit : s.nextBit.sameWire t.nextBit := by
  obtain ⟨-, hframe, hlen, hidx, -, hd0, hd1, hoe, hcfg, hseen, hedge⟩ := h
  simp [State.sameWire, hframe, hlen, hidx, hd0, hd1, hoe, hcfg, hseen, hedge]

theorem sameWire_complete : s.complete.sameWire t.complete := by
  obtain ⟨-, -, -, hidx, -, hd0, hd1, hoe, hcfg, hseen, hedge⟩ := h
  simp [State.sameWire, hidx, hd0, hd1, hoe, hcfg, hseen, hedge]

theorem sameWire_pulseArm : (pulseArm s).sameWire (pulseArm t) := by
  obtain ⟨-, -, hcnt, hcfg, -⟩ := phase_eq_of_sameWire h
  unfold pulseArm
  rw [hcnt, hcfg]
  split
  · exact sameWire_startGap h
  · exact sameWire_tick h

theorem sameWire_gapArm : (gapArm s).sameWire (gapArm t) := by
  obtain ⟨-, hidx, hcnt, hcfg, -⟩ := phase_eq_of_sameWire h
  unfold gapArm
  rw [hcnt, hcfg, hidx]
  split
  · exact sameWire_tick h
  · split
    · exact sameWire_nextBit h
    · exact sameWire_complete h

theorem sameWire_code3Arm : (code3Arm s).sameWire (code3Arm t) := by
  obtain ⟨-, hframe, hlen, hidx, -, -, -, hoe, hcfg, hseen, hedge⟩ := h
  simp [State.sameWire, hframe, hlen, hidx, hoe, hcfg, hseen, hedge]

end

/-- Settles O56: both edges are the same arm, since the arm depends on `st`, the inputs and the record of a reset edge
alone, and the arm keeps the transmissions equal. -/
theorem leftoverStateNeverReachesTheWire : Obligations.LeftoverStateNeverReachesTheWire := by
  intro inp s t h
  obtain ⟨hst, -, -, -, hseen⟩ := phase_eq_of_sameWire h
  have hd := sameWire_edgeDefaults h
  rcases clockEdge_cases inp s with
    ⟨hr, e⟩ | ⟨hr, hs, hn, e⟩ | ⟨hr, hs, ⟨hv, hsn⟩, e⟩ | ⟨hr, hs, e⟩ | ⟨hr, hs, e⟩ | ⟨hr, hs, e⟩
  · exact ⟨_, _, e, clockEdge_reset hr, sameWire_resetEdge h _⟩
  · exact ⟨_, _, e, clockEdge_wait hr (hst ▸ hs) (hseen ▸ hn), hd⟩
  · exact ⟨_, _, e.trans (exec_decodeWord ..), (clockEdge_take hr (hst ▸ hs) hv (hseen ▸ hsn)).trans (exec_decodeWord ..),
      sameWire_perform hd _⟩
  · exact ⟨_, _, e, clockEdge_pulse hr (hst ▸ hs), sameWire_pulseArm hd⟩
  · exact ⟨_, _, e, clockEdge_gap hr (hst ▸ hs), sameWire_gapArm hd⟩
  · exact ⟨_, _, e, clockEdge_code3 hr (hst ▸ hs), sameWire_code3Arm hd⟩

end Sys2Proof.Machine
end

