-- ==== Sys2Proof/Proofs/Inputs.lean ====
section
/-! PROOFS. What an edge without a reset reads of its inputs (10_state.md R37, 60_exceptions.md R172). -/

namespace Sys2Proof.Machine

/-- Of the inputs without a reset, an edge reads `cmd_valid` in IDLE after a reset edge (R30, R184), and `cmd` only
where `cmd_valid = 1`: inputs that agree there have the same outcome. -/
theorem clockEdge_congr_inputs {a b : Inputs} {s : State} (ha : a.rst = 0) (hb : b.rst = 0)
    (hvalid : s.st = .idle → s.resetSeen = true → a.cmdValid = b.cmdValid)
    (hcmd : s.st = .idle → s.resetSeen = true → a.cmdValid = 1 → a.cmd = b.cmd) :
    clockEdge a s = clockEdge b s := by
  cases hs : s.st with
  | idle =>
    cases hseen : s.resetSeen with
    | false => rw [clockEdge_wait ha hs (.inr hseen), clockEdge_wait hb hs (.inr hseen)]
    | true =>
      have hab := hvalid hs hseen
      rcases bit_cases a.cmdValid with hv | hv
      · rw [clockEdge_wait ha hs (.inl hv), clockEdge_wait hb hs (.inl (hab ▸ hv))]
      · rw [clockEdge_take ha hs hv hseen, clockEdge_take hb hs (hab ▸ hv) hseen, hcmd hs hseen hv]
  | pulse => rw [clockEdge_pulse ha hs, clockEdge_pulse hb hs]
  | gap => rw [clockEdge_gap ha hs, clockEdge_gap hb hs]
  | code3 => rw [clockEdge_code3 ha hs, clockEdge_code3 hb hs]

/-- Settles O14: in each clause the inputs agree on all that the edge reads of them. -/
theorem unsampledInputsHaveNoEffect : Obligations.UnsampledInputsHaveNoEffect := by
  intro s a b ha hb
  refine ⟨fun hbusy => ?busy, fun hunseen => ?beforeReset, fun hva hvb => ?noOffer, fun hv hc => ?sameOffer⟩
  case busy =>
    exact clockEdge_congr_inputs ha hb (fun hs => absurd hs hbusy) (fun hs => absurd hs hbusy)
  case beforeReset =>
    have hnot : s.resetSeen ≠ true := by simp [hunseen]
    exact clockEdge_congr_inputs ha hb (fun _ hseen => absurd hseen hnot) (fun _ hseen => absurd hseen hnot)
  case noOffer =>
    have hnot : a.cmdValid ≠ 1 := bit_ne_one.mpr hva
    exact clockEdge_congr_inputs ha hb (fun _ _ => hva.trans hvb.symm) (fun _ _ hv => absurd hv hnot)
  case sameOffer =>
    exact clockEdge_congr_inputs ha hb (fun _ _ => hv) (fun _ _ _ => hc)

end Sys2Proof.Machine
end

