-- ==== Sys2Proof/Proofs/Encoding.lean ====
section
/-! PROOFS. The decoder and the encoder (30_encoding.md R70 to R78): the decoder's equation for each OP value, `decodeWord`
and `encode` inverse to each other, and the rows of the opcode table. -/

namespace Sys2Proof

/-! ## The decoder, one equation for each constructor -/

section
variable {w : CmdWord}

theorem decodeWord_of_op1 (h : cmdOp w = 0x1#4) : decodeWord w = .send (cmdHeader w) (cmdOpa w) (cmdOpb w) := by
  simp [decodeWord, h]

theorem decodeWord_of_op2 (h : cmdOp w = 0x2#4) :
    decodeWord w = .send26 (cmdHeader w) ((cmdOpa w).extractLsb' 8 24) ((cmdOpa w).extractLsb' 0 8)
      ((cmdOpb w).extractLsb' 16 16) ((cmdOpb w).extractLsb' 0 16) := by
  simp [decodeWord, h, cmdOpa, cmdOpb, extractLsb'_part]

theorem decodeWord_of_op3 (h : cmdOp w = 0x3#4) :
    decodeWord w = .send34 (cmdHeader w) ((cmdOpa w).extractLsb' 16 16) ((cmdOpa w).extractLsb' 0 16)
      ((cmdOpb w).extractLsb' 16 16) ((cmdOpb w).extractLsb' 0 16) := by
  simp [decodeWord, h, cmdOpa, cmdOpb, extractLsb'_part]

theorem decodeWord_of_op4 (h : cmdOp w = 0x4#4) :
    decodeWord w = .sendEm4100 (cmdHeader w) ((cmdOpa w).extractLsb' 8 24) ((cmdOpa w).extractLsb' 0 8) (cmdOpb w) := by
  simp [decodeWord, h, cmdOpa, extractLsb'_part]

theorem decodeWord_of_op0 (h : cmdOp w = 0x0#4) : decodeWord w = .reserved0 (cmdHeader w) (cmdOpa w) (cmdOpb w) := by
  simp [decodeWord, h]

theorem decodeWord_of_op5 (h : cmdOp w = 0x5#4) : decodeWord w = .reserved5 (cmdHeader w) (cmdOpa w) (cmdOpb w) := by
  simp [decodeWord, h]

theorem decodeWord_of_op6to7 {low : BitVec 1} (h : cmdOp w = 0b011#3 ++ low) :
    decodeWord w = .reserved6to7 low (cmdHeader w) (cmdOpa w) (cmdOpb w) := by
  have hop : ∀ x : BitVec 1, (0b011#3 ++ x).toNat = 6 ∨ (0b011#3 ++ x).toNat = 7 := by decide
  have hlow : w.extractLsb' 92 1 = low := by
    rw [← extractLsb'_part w 92 4 0 1 (by decide), ← cmdOp, h, Machine.extractLsb'_append_operand]
  rcases hop low with hop | hop <;> simp only [decodeWord, h, hop, hlow]

theorem decodeWord_of_op8toF {low : BitVec 3} (h : cmdOp w = 0b1#1 ++ low) :
    decodeWord w = .reserved8toF low (cmdHeader w) (cmdOpa w) (cmdOpb w) := by
  have hop : ∀ x : BitVec 3, 8 ≤ (0b1#1 ++ x).toNat := by decide
  have hge : 8 ≤ (cmdOp w).toNat := h ▸ hop low
  have hlow : w.extractLsb' 92 3 = low := by
    rw [← extractLsb'_part w 92 4 0 3 (by decide), ← cmdOp, h, Machine.extractLsb'_append_operand]
  unfold decodeWord
  split
  case h_9 => rw [hlow]
  all_goals omega

end

/-! ## `decodeWord` and `encode` are inverse -/

/-- The two parts of an operand that is cut at bit 8 (R75). -/
theorem parts_of_operand8 (x : BitVec 24) (y : BitVec 8) :
    (x ++ y : BitVec 32).extractLsb' 8 24 = x ∧ (x ++ y : BitVec 32).extractLsb' 0 8 = y :=
  ⟨BitVec.extractLsb'_append_eq_left, BitVec.extractLsb'_append_eq_right⟩

/-- The two parts of an operand that is cut at bit 16 (R75). -/
theorem parts_of_operand16 (x y : BitVec 16) :
    (x ++ y : BitVec 32).extractLsb' 16 16 = x ∧ (x ++ y : BitVec 32).extractLsb' 0 16 = y :=
  ⟨BitVec.extractLsb'_append_eq_left, BitVec.extractLsb'_append_eq_right⟩

/-- Settles O18: the OP of the encoding selects the constructor, and each field is a part of a field of the word. -/
theorem decodeOfEncode : Obligations.DecodeOfEncode := by
  intro i
  have hop := encode_op i
  cases i with
  | send => rw [decodeWord_of_op1 hop]; simp [encode]
  | send26 => rw [decodeWord_of_op2 hop]; simp [encode, parts_of_operand8, parts_of_operand16]
  | send34 => rw [decodeWord_of_op3 hop]; simp [encode, parts_of_operand16]
  | sendEm4100 => rw [decodeWord_of_op4 hop]; simp [encode, parts_of_operand8]
  | reserved0 => rw [decodeWord_of_op0 hop]; simp [encode]
  | reserved5 => rw [decodeWord_of_op5 hop]; simp [encode]
  | reserved6to7 => rw [decodeWord_of_op6to7 hop]; simp [encode]
  | reserved8toF => rw [decodeWord_of_op8toF hop]; simp [encode]

/-- A value cut at bit `n` and put together again. -/
theorem append_extractLsb'_self {m n : Nat} (x : BitVec (m + n)) : x.extractLsb' n m ++ x.extractLsb' 0 n = x := by
  rw [append_of_parts x 0 n (Nat.zero_add n).symm, Machine.extractLsb'_whole]

/-- The OP values of R71, constructor by constructor. -/
theorem op_cases (op : BitVec 4) :
    op = 0x1#4 ∨ op = 0x2#4 ∨ op = 0x3#4 ∨ op = 0x4#4 ∨ op = 0x0#4 ∨ op = 0x5#4 ∨
    (∃ low : BitVec 1, op = 0b011#3 ++ low) ∨ ∃ low : BitVec 3, op = 0b1#1 ++ low := by
  revert op
  decide

/-- Settles O19: on the constructor that OP selects, the fields of the command make up the fields of the word. -/
theorem encodeOfDecode : Obligations.EncodeOfDecode := by
  intro w
  have hw : ∀ op, cmdOp w = op → encodeFields op (cmdHeader w) (cmdOpa w) (cmdOpb w) = w := by
    rintro op rfl
    exact encodeFields_of_fields w
  have hcut8 (x : BitVec 32) : x.extractLsb' 8 24 ++ x.extractLsb' 0 8 = x :=
    append_extractLsb'_self (m := 24) (n := 8) x
  have hcut16 (x : BitVec 32) : x.extractLsb' 16 16 ++ x.extractLsb' 0 16 = x :=
    append_extractLsb'_self (m := 16) (n := 16) x
  rcases op_cases (cmdOp w) with h | h | h | h | h | h | ⟨low, h⟩ | ⟨low, h⟩
  · rw [decodeWord_of_op1 h]; exact hw _ h
  · rw [decodeWord_of_op2 h, encode, hcut8, hcut16]; exact hw _ h
  · rw [decodeWord_of_op3 h, encode, hcut16, hcut16]; exact hw _ h
  · rw [decodeWord_of_op4 h, encode, hcut8]; exact hw _ h
  · rw [decodeWord_of_op0 h]; exact hw _ h
  · rw [decodeWord_of_op5 h]; exact hw _ h
  · rw [decodeWord_of_op6to7 h]; exact hw _ h
  · rw [decodeWord_of_op8toF h]; exact hw _ h

theorem op_decodeWord (w : CmdWord) : (decodeWord w).op = cmdOp w := by
  rw [← encode_op, encodeOfDecode w]

/-- Settles O17: the words decode by evaluation, and a word is the encoding of what it decodes to. -/
theorem exampleWordsDecode : Obligations.ExampleWordsDecode := by
  intro p hp
  have hdecode : decodeWord p.2 = p.1 := by
    revert p
    decide
  exact ⟨hdecode, hdecode ▸ encodeOfDecode p.2⟩

/-! ## The rows of the opcode table -/

/-- Whether an OP value lies in a row: what `OpcodeRow.covers` comes to for the rows of the table, whose masks and values
hold bits of OP alone (`covers_eq_coversOp`). -/
def OpcodeRow.coversOp (r : OpcodeRow) (op : BitVec 4) : Bool := op &&& cmdOp r.mask == cmdOp r.value

/-- A row of the table covers a word by its OP alone (R71). -/
theorem covers_eq_coversOp {r : OpcodeRow} (hr : r ∈ opcodeTable) (w : CmdWord) : r.covers w = r.coversOp (cmdOp w) := by
  have hlow : ∀ r ∈ opcodeTable, r.mask = cmdOp r.mask ++ 0#92 ∧ r.value = cmdOp r.value ++ 0#92 := by decide
  obtain ⟨hm, hv⟩ := hlow r hr
  have hw : w = cmdOp w ++ w.extractLsb' 0 92 := (append_extractLsb'_self (m := 4) (n := 92) w).symm
  rw [OpcodeRow.covers, OpcodeRow.coversOp, Bool.eq_iff_iff, beq_iff_eq, beq_iff_eq]
  constructor
  · intro h
    have hop := congrArg cmdOp h
    simpa [cmdOp, BitVec.extractLsb'_and] using hop
  · intro h
    calc w &&& r.mask = (cmdOp w ++ w.extractLsb' 0 92) &&& (cmdOp r.mask ++ 0#92) := by rw [← hm, ← hw]
      _ = (cmdOp w &&& cmdOp r.mask) ++ 0#92 := by rw [BitVec.and_append, BitVec.and_zero]
      _ = r.value := by rw [h, ← hv]

/-- The row of a command is the one that covers its OP, which is a literal but for the free low bits of the last two. -/
theorem tableRow_eq_findIdx (i : Instr) : i.tableRow = opcodeTable.findIdx (·.coversOp i.op) := by
  cases i <;> simp only [Instr.tableRow, Instr.op] <;> decide +revert

/-- No OP value lies in two rows. -/
theorem coversOp_iff_findIdx (op : BitVec 4) (k : Nat) (r : OpcodeRow) (hk : opcodeTable[k]? = some r) :
    r.coversOp op = true ↔ opcodeTable.findIdx (·.coversOp op) = k := by
  have hall : ∀ (op : BitVec 4) (k : Fin opcodeTable.length),
      opcodeTable[k].coversOp op = true ↔ opcodeTable.findIdx (·.coversOp op) = k := by decide
  obtain ⟨hlt, rfl⟩ := List.getElem?_eq_some_iff.mp hk
  exact hall op ⟨k, hlt⟩

/-- Settles O20: a row covers a word by its OP, and the OP values fall into the rows of their commands. -/
theorem opcodeRowsPartitionWords : Obligations.OpcodeRowsPartitionWords := by
  intro w k r hk
  rw [covers_eq_coversOp (List.mem_of_getElem? hk), tableRow_eq_findIdx, op_decodeWord]
  exact coversOp_iff_findIdx _ k r hk

end Sys2Proof
end

