-- ==== Sys2Proof/Proofs/Verdict.lean ====
section
/-! PROOFS. The decoder's verdict (30_encoding.md R76): which words have which verdict, which bits it reads, and what
`exec` makes of it. -/

namespace Sys2Proof.Machine

/-- BITS is a format exactly when it holds one of the three numbers (R72). -/
theorem ofBits_isSome_iff (b : BitVec 8) :
    (Format.ofBits b).isSome = true ↔ b.toNat = 26 ∨ b.toNat = 34 ∨ b.toNat = 40 := by
  revert b
  decide

/-- The verdicts on a word, each with the OP and BITS it is for (R76). -/
theorem classify_cases {w : CmdWord} {op bits : Nat} (hop : (cmdOp w).toNat = op) (hbits : (cmdBits w).toNat = bits) :
    (op = 1 ∧ (bits = 26 ∨ bits = 34 ∨ bits = 40) ∧ ∃ o fmt data, classify w = .accept o fmt data) ∨
    (op = 1 ∧ ¬ (bits = 26 ∨ bits = 34 ∨ bits = 40) ∧ classify w = .reject .errFormat) ∨
    ((2 ≤ op ∧ op ≤ 4) ∧ ∃ o fmt data, classify w = .accept o fmt data) ∨
    ((op = 0 ∨ 5 ≤ op) ∧ classify w = .reject .errOp) := by
  have hrest : ∀ x : BitVec 4, (x = 0x0#4 ∨ x = 0x5#4 ∨ (∃ low : BitVec 1, x = 0b011#3 ++ low) ∨
      ∃ low : BitVec 3, x = 0b1#1 ++ low) → x.toNat = 0 ∨ 5 ≤ x.toNat := by decide
  have hfmt := ofBits_isSome_iff (cmdBits w)
  subst hop hbits
  rcases op_cases (cmdOp w) with h | h | h | h | h
  · cases hf : Format.ofBits (cmdBits w) with
    | some fmt => exact .inl ⟨by simp [h], hfmt.mp (by simp [hf]), by simp [classify, h, hf]⟩
    | none => exact .inr (.inl ⟨by simp [h], fun hb => by simpa [hf] using hfmt.mpr hb, by simp [classify, h, hf]⟩)
  · exact .inr (.inr (.inl ⟨by simp [h], by simp [classify, h]⟩))
  · exact .inr (.inr (.inl ⟨by simp [h], by simp [classify, h]⟩))
  · exact .inr (.inr (.inl ⟨by simp [h], by simp [classify, h]⟩))
  · exact .inr (.inr (.inr ⟨hrest _ h, classify_of_reserved (hrest _ h)⟩))

/-- Settles O22, verdict by verdict: OP and BITS admit no other one. -/
theorem rejectionClasses : Obligations.RejectionClasses := by
  intro w op bits
  have hcases := classify_cases (w := w) (op := op) (bits := bits) rfl rfl
  clear_value op bits
  rcases hcases with ⟨hop, hbits, _, _, _, h⟩ | ⟨hop, hbits, h⟩ | ⟨hop, _, _, _, h⟩ | ⟨hop, h⟩ <;>
    (simp [h]; omega)

/-- Settles O21: `perform`, which is what `exec` does with a decoded word, unfolded at either verdict. -/
theorem verdictDecidesExecution : Obligations.VerdictDecidesExecution := by
  intro w s
  rw [exec_decodeWord]
  cases h : classify w with
  | accept op fmt data => rw [perform_of_accept h]
  | reject code => rw [perform_of_reject h]; rfl

/-- The verdict reads OP, BITS, OPA and OPB alone (R73, R74). -/
theorem classify_congr {v w : CmdWord} (hop : cmdOp v = cmdOp w) (hbits : cmdBits v = cmdBits w)
    (ha : cmdOpa v = cmdOpa w) (hb : cmdOpb v = cmdOpb w) : classify v = classify w := by
  simp only [classify, hop, hbits, ha, hb]

/-- Words that agree on a part agree on every part of it. -/
theorem extractLsb'_congr_part {n lo len : Nat} {v w : BitVec n} (h : v.extractLsb' lo len = w.extractLsb' lo len)
    (lo' len' : Nat) (hle : lo' + len' ≤ len) : v.extractLsb' (lo + lo') len' = w.extractLsb' (lo + lo') len' := by
  rw [← extractLsb'_part v lo len lo' len' hle, h, extractLsb'_part w lo len lo' len' hle]

/-- Settles O23: the outcome is the verdict's, which reads OP, BITS, OPA and OPB; the convenience commands' meanings do not
read the other fields. -/
theorem ignoredBitsChangeNothing : Obligations.IgnoredBitsChangeNothing := by
  refine fun s => ⟨fun v w hhead hdata => ?_, fun _ _ _ _ _ _ _ _ => rfl, fun _ _ _ _ _ _ _ _ => rfl,
    fun _ _ _ _ _ _ => rfl⟩
  have hop : cmdOp v = cmdOp w := extractLsb'_congr_part hhead 8 4 (by decide)
  have hbits : cmdBits v = cmdBits w := extractLsb'_congr_part hhead 0 8 (by decide)
  have hopa : cmdOpa v = cmdOpa w := extractLsb'_congr_part hdata 32 32 (by decide)
  have hopb : cmdOpb v = cmdOpb w := extractLsb'_congr_part hdata 0 32 (by decide)
  simp only [exec_decodeWord, State.perform, classify_congr hop hbits hopa hopb, hop, hbits, hdata]

end Sys2Proof.Machine
end

