-- ==== Sys2Proof/Proofs/Assembler.lean ====
section
/-! PROOFS. The assembler (30_encoding.md R79, R80): the commands it forms are the well-formed ones, and their words keep
the operands in the bits R75 names. -/

namespace Sys2Proof.Machine

/-- A well-formed convenience header is all 0 (R77). -/
theorem header_flaw_eq_none_iff (h : Header) : h.flaw = none ↔ h = asmHeader 0 0 := by
  obtain ⟨bits, wfc, rsv⟩ := h
  by_cases hrsv : rsv = 0#19 <;> simp [Header.flaw, asmHeader, hrsv]

/-- The commands an encoder may form (R74, R77): nothing set that the command ignores, but WFC of SEND. -/
theorem wf_iff (i : Instr) : i.wf = true ↔
    (∃ bits wfc opa opb, i = .send { bits := bits, wfc := wfc, rsv := 0 } opa opb) ∨
    (∃ fc cn, i = .send26 (asmHeader 0 0) 0 fc 0 cn) ∨
    (∃ fc cn, i = .send34 (asmHeader 0 0) 0 fc 0 cn) ∨
    (∃ version cardId, i = .sendEm4100 (asmHeader 0 0) 0 version cardId) := by
  cases i with
  | send h opa opb =>
    obtain ⟨bits, wfc, rsv⟩ := h
    simp [Instr.wf, Instr.flaw]
  | send26 => simp [Instr.wf, Instr.flaw, header_flaw_eq_none_iff]
  | send34 => simp [Instr.wf, Instr.flaw, header_flaw_eq_none_iff]
  | sendEm4100 => simp [Instr.wf, Instr.flaw, header_flaw_eq_none_iff]
  | _ => simp [Instr.wf, Instr.flaw]

/-- R74: RSV is 0 in the word of a well-formed command. -/
theorem cmdRsv_encode_of_wf {i : Instr} (h : i.wf = true) : cmdRsv (encode i) = 0 := by
  rcases (wf_iff i).mp h with ⟨_, _, _, _, rfl⟩ | ⟨_, _, rfl⟩ | ⟨_, _, rfl⟩ | ⟨_, _, rfl⟩ <;> simp [encode, asmHeader]

/-- The two halves of a 64-bit number, as the assembler cuts it. -/
theorem ofNat_halves (n : Nat) : BitVec.ofNat 32 (n / 2 ^ 32) ++ BitVec.ofNat 32 n = BitVec.ofNat 64 n := by
  apply BitVec.eq_of_toNat_eq
  rw [BitVec.toNat_append, ← Nat.shiftLeft_add_eq_or_of_lt (BitVec.isLt _)]
  simp [Nat.shiftLeft_eq]
  omega

/-- A concatenation determines its operands. -/
theorem append_inj {m n : Nat} {x x' : BitVec m} {y y' : BitVec n} (h : x ++ y = x' ++ y') : x = x' ∧ y = y' := by
  have hlow := congrArg (BitVec.extractLsb' 0 n) h
  have hhigh := congrArg (BitVec.extractLsb' n m) h
  simp only [BitVec.extractLsb'_append_eq_left, BitVec.extractLsb'_append_eq_right] at hlow hhigh
  exact ⟨hhigh, hlow⟩

/-! ## Lines that are formed and lines that are refused -/

section
variable {α : Type} {fits : Prop} [Decidable fits] {x y : α} {e : AsmError}

theorem eq_of_ite_eq_ok (h : (if fits then .ok x else .error e : Except AsmError α) = .ok y) : x = y := by
  split at h
  · exact Except.ok.inj h
  · cases h

theorem ite_eq_error_iff : (if fits then .ok x else .error e : Except AsmError α) = .error e ↔ ¬ fits := by
  split <;> simp [*]

end

/-- R74, R79: what a line forms is well formed. -/
theorem wf_of_assembleCommand {l : AsmLine} {i : Instr} (h : assembleCommand l = .ok (some i)) : i.wf = true := by
  cases l with
  | send | send26 | send34 | sendEm4100 =>
    cases eq_of_ite_eq_ok h
    rfl
  | reset | waitDone | delay | cmd => cases h

/-- R79: the line of a well-formed command has the command's fields as its operands. -/
theorem exists_assembleCommand_of_wf {i : Instr} (h : i.wf = true) : ∃ l, assembleCommand l = .ok (some i) := by
  rcases (wf_iff i).mp h with ⟨bits, wfc, opa, opb, rfl⟩ | ⟨fc, cn, rfl⟩ | ⟨fc, cn, rfl⟩ | ⟨version, cardId, rfl⟩
  · refine ⟨.send (opa ++ opb).toNat bits.toNat wfc.toNat, ?_⟩
    have hdata : BitVec.ofNat 64 (opa ++ opb).toNat = opa ++ opb := by simp
    obtain ⟨hopa, hopb⟩ := append_inj ((ofNat_halves _).trans hdata)
    rw [assembleCommand, if_pos ⟨BitVec.isLt _, bits.isLt, wfc.isLt⟩, hopa, hopb]
    simp [asmHeader]
  · exact ⟨.send26 fc.toNat cn.toNat, by simp [assembleCommand, fc.isLt, cn.isLt]⟩
  · exact ⟨.send34 fc.toNat cn.toNat, by simp [assembleCommand, fc.isLt, cn.isLt]⟩
  · exact ⟨.sendEm4100 version.toNat cardId.toNat, by simp [assembleCommand, version.isLt, cardId.isLt]⟩

/-- Settles O24: a line forms well-formed commands, and every one of them; the refusal is the range check's other branch. -/
theorem assemblerFormsLegalWords : Obligations.AssemblerFormsLegalWords :=
  ⟨fun _ _ h => ⟨wf_of_assembleCommand h, cmdRsv_encode_of_wf (wf_of_assembleCommand h)⟩,
    fun _ => exists_assembleCommand_of_wf,
    fun _ _ _ => ite_eq_error_iff, fun _ _ => ite_eq_error_iff, fun _ _ => ite_eq_error_iff,
    fun _ _ => ite_eq_error_iff⟩

/-! ## The words of command lines -/

/-- What the host offers for a command line is the command's word (R79). -/
theorem assembleLine_of_command {l : AsmLine} {i : Instr} (h : assembleCommand l = .ok (some i)) :
    assembleLine l = .ok (.command (encode i)) := by
  cases l with
  | send | send26 | send34 | sendEm4100 => rw [assembleLine, h] <;> simp
  | reset | waitDone | delay | cmd => cases h

/-- A number that fits is the number of its bits. -/
theorem toNat_ofNat_of_lt {n k : Nat} (h : k < 2 ^ n) : (BitVec.ofNat n k).toNat = k :=
  (BitVec.toNat_ofNat k n).trans (Nat.mod_eq_of_lt h)

/-- A number that fits the low part of an operand is the operand's number, with 0 above it. -/
theorem toNat_zero_append_ofNat {m n k : Nat} (h : k < 2 ^ n) : (0#m ++ BitVec.ofNat n k).toNat = k := by
  simp [BitVec.toNat_append, Nat.mod_eq_of_lt h]

/-- Settles O25: a line's word is the encoding of its command, whose fields are the operands that fit. -/
theorem assembledSendKeepsData : Obligations.AssembledSendKeepsData := by
  refine ⟨fun data bits wfc hd hb hw => ⟨_, assembleLine_of_command (if_pos ⟨hd, hb, hw⟩), ?send⟩,
    fun fc cn hf hc => ⟨_, assembleLine_of_command (if_pos ⟨hf, hc⟩), ?send26⟩,
    fun fc cn hf hc => ⟨_, assembleLine_of_command (if_pos ⟨hf, hc⟩), ?send34⟩,
    fun version cardId hv hc => ⟨_, assembleLine_of_command (if_pos ⟨hv, hc⟩), ?sendEm4100⟩,
    fun n hn => ⟨_, if_pos hn, toNat_ofNat_of_lt hn⟩,
    fun n hn => ⟨_, if_pos hn, toNat_ofNat_of_lt hn⟩, fun _ => rfl, rfl⟩
  case send =>
    simp only [encode, cmdData_eq, cmdOpa_encodeFields, cmdOpb_encodeFields, ofNat_halves]
    simp [Instr.op, asmHeader, toNat_ofNat_of_lt hd, toNat_ofNat_of_lt (n := 8) hb, toNat_ofNat_of_lt (n := 1) hw]
  case send26 => simp [encode, Instr.op, asmHeader, toNat_zero_append_ofNat hf, toNat_zero_append_ofNat hc]
  case send34 => simp [encode, Instr.op, asmHeader, toNat_zero_append_ofNat hf, toNat_zero_append_ofNat hc]
  case sendEm4100 => simp [encode, Instr.op, asmHeader, toNat_zero_append_ofNat hv, toNat_ofNat_of_lt hc]

end Sys2Proof.Machine
end

