-- ==== Sys2Proof/Proofs/Host.lean ====
section
/-! PROOFS. What each host directive drives and what it leaves for the edges after it (30_encoding.md R80). -/

namespace Sys2Proof.Machine

section
variable {s : State} {rest : List HostAct}

/-- What the host's edge drives is sampled, and what it leaves is the host's list in the next cycle. -/
theorem sample_advance_of_hostEdge {i : Inputs} (h : hostEdge s.takesCommand s.done s.edge s.host = (i, rest)) :
    s.sample = i ∧ s.advance.host = rest :=
  ⟨congrArg Prod.fst h, congrArg Prod.snd h⟩

/-- An action that the host passes without an edge leaves the coming edge to the actions after it. -/
theorem sample_advance_of_passed (h : hostEdge s.takesCommand s.done s.edge s.host =
    hostEdge s.takesCommand s.done s.edge rest) :
    s.sample = { s with host := rest }.sample ∧ s.advance = { s with host := rest }.advance := by
  have htakes : { s with host := rest }.takesCommand = s.takesCommand := rfl
  simp [State.sample, State.advance, h, htakes]

end

/-- Settles O59, directive by directive. -/
theorem hostDirectives : Obligations.HostDirectives := by
  refine fun s rest => ⟨fun w h => ?command, fun d h => ?reset, fun n h => ?delay, fun h => ?delayZero⟩
  case command =>
    rw [sample_command h, advance_host_command h, ← takesCommand_iff]
    exact ⟨rfl, rfl, rfl, fun hbusy => if_neg hbusy, fun hready => if_pos hready⟩
  case reset =>
    obtain ⟨hsample, hhost⟩ := sample_advance_of_hostEdge (i := resetInputs d) (by rw [h, hostEdge])
    exact ⟨by rw [hsample]; rfl, by rw [hsample]; rfl, hhost⟩
  case delay =>
    obtain ⟨hsample, hhost⟩ := sample_advance_of_hostEdge (i := quietInputs) (by rw [h, hostEdge])
    exact ⟨by rw [hsample]; rfl, by rw [hsample]; rfl, hhost⟩
  case delayZero => exact sample_advance_of_passed (by rw [h, hostEdge])

/-- Settles O60: until `done = 1` the host is quiet and stays; then it passes on without an edge. -/
theorem waitDoneWaits : Obligations.WaitDoneWaits := by
  refine fun s rest h => ⟨fun hd => ?_, fun hd => sample_advance_of_passed (by rw [h, hostEdge, if_pos hd])⟩
  obtain ⟨hsample, hhost⟩ := sample_advance_of_hostEdge (i := quietInputs) (by rw [h, hostEdge, if_neg hd])
  exact ⟨by rw [hsample]; rfl, by rw [hsample]; rfl, hhost.trans h.symm⟩

end Sys2Proof.Machine
end

