-- ==== Sys2Proof/Proofs/Pulse.lean ====
section
/-! PROOFS. The PULSE and GAP arms of the step (40_pulse.md R92 to R94), and what the reader's tolerance asks of the
jitter bound (R103). -/

namespace Sys2Proof

/-- R103 for a time of `n` cycles that lasts `d` ns: each bound is moved by twice the jitter. -/
theorem Config.withinJitter_iff {c : Config} {n d lo hi : Nat} (hclk : 0 < c.fClkHz)
    (hd : n * 1000000000 = d * c.fClkHz) :
    c.withinJitter n lo hi ↔ lo + 2 * c.jitterNs ≤ d ∧ d + 2 * c.jitterNs ≤ hi := by
  rw [Config.withinJitter, hd, ← Nat.add_mul, Nat.mul_le_mul_right_iff hclk, Nat.mul_le_mul_right_iff hclk]

/-- Settles O5: of the four bounds, 20 µs below the pulse's 50 µs is the tightest. -/
theorem jitterBoundForTolerance : Obligations.JitterBoundForTolerance := by
  intro c hw
  obtain ⟨hpw, hipi, hpos, -⟩ := Config.wholeCycles_spec (Config.wf_spec hw).1
  have hclk : 0 < c.fClkHz := by omega
  have hpulse : c.pwCycles * 1000000000 = 50000 * c.fClkHz := by linarith
  have hspace : c.ipiCycles * 1000000000 = 1000000 * c.fClkHz := by linarith
  rw [Config.readerTolerates, Config.withinJitter_iff hclk hpulse, Config.withinJitter_iff hclk hspace]
  omega

end Sys2Proof

namespace Sys2Proof.Machine

section
variable {s : State}

/-- Inside a phase of `n` cycles the counter counts and does not wrap (R92, R93). -/
theorem tick_eq {n : Nat} (hn : n ≤ 2 ^ s.cfg.cntW) (h : s.cnt < n) (hl : s.cnt ≠ n - 1) :
    s.tick = { s with cnt := s.cnt + 1 } :=
  congrArg (fun c => { s with cnt := c }) (tick_cnt_lt hn h hl)

theorem pulseArm_of_last (h : s.cnt = s.cfg.pwCycles - 1) : pulseArm s = s.startGap := if_pos h

theorem pulseArm_of_inside (h : s.cnt < s.cfg.pwCycles) (hl : s.cnt ≠ s.cfg.pwCycles - 1) :
    pulseArm s = { s with cnt := s.cnt + 1 } :=
  (if_neg hl).trans (tick_eq s.cfg.pwCycles_le h hl)

theorem gapArm_of_inside (h : s.cnt < s.cfg.ipiCycles) (hl : s.cnt ≠ s.cfg.ipiCycles - 1) :
    gapArm s = { s with cnt := s.cnt + 1 } :=
  (if_pos hl).trans (tick_eq s.cfg.ipiCycles_le h hl)

theorem gapArm_of_last (h : s.cnt = s.cfg.ipiCycles - 1) (hi : s.idx ≠ 0) : gapArm s = s.nextBit :=
  (if_neg (not_not.mpr h)).trans (if_pos hi)

/-- A step in PULSE without a reset is the PULSE arm. -/
theorem step_pulse {t : State} (hw : s.cfg.wf = true) (hs : s.st = .pulse) (hr : s.sample.rst = 0)
    (h : pulseArm s.advance.edgeDefaults = t) : step s = .next t :=
  (step_eq hw).trans ((clockEdge_pulse (s := s.advance) hr hs).trans (congrArg _ h))

/-- A step in GAP without a reset is the GAP arm. -/
theorem step_gap {t : State} (hw : s.cfg.wf = true) (hs : s.st = .gap) (hr : s.sample.rst = 0)
    (h : gapArm s.advance.edgeDefaults = t) : step s = .next t :=
  (step_eq hw).trans ((clockEdge_gap (s := s.advance) hr hs).trans (congrArg _ h))

end

/-- Settles O11, by the branches of the PULSE arm. -/
theorem pulseArmOfStep : Obligations.PulseArmOfStep :=
  fun s hw hs hr hcnt => ⟨s.cfg.pwCycles_le, fun hlast => step_pulse hw hs hr (pulseArm_of_last hlast),
    fun hmore => step_pulse hw hs hr (pulseArm_of_inside hcnt hmore)⟩

/-- Settles O12, by the branches of the GAP arm. -/
theorem gapArmOfStep : Obligations.GapArmOfStep := by
  refine fun s hw hs hr hcnt hidx => ⟨fun hmore => ?tick, fun hlast hi => ?nextBit, fun hlast hi => ?complete⟩
  case tick => exact step_gap hw hs hr (gapArm_of_inside hcnt hmore)
  case nextBit =>
    have harm := gapArm_of_last (s := s.advance.edgeDefaults) hlast hi
    exact step_gap hw hs hr (harm.trans (nextBit_eq hi hidx))
  case complete => exact step_complete hw ⟨hs, hr, hlast, hi⟩

end Sys2Proof.Machine
end

