-- ==== Sys2Proof/Proofs/Waveform.lean ====
section
/-! PROOFS. The waveform of one accepted command (40_pulse.md R95): where the block is in each cycle, by the arms of the
step, and what a reader makes of the lines (R99). -/

namespace Sys2Proof.Machine

/-! ## Runs without a reset -/

/-- No reset is sampled at the coming `n` edges: `noResetFor_of_drivenBy` gives it for the levels a host drives. -/
def State.noResetFor (n : Nat) (s : State) : Prop := ∀ m < n, ∀ t, runEdges m s = .next t → t.sample.rst = 0

/-- A run of one more edge is an edge and a run. -/
theorem exists_step_of_runEdges {s t : State} {m : Nat} (h : runEdges (m + 1) s = .next t) :
    ∃ u, step s = .next u ∧ runEdges m u = .next t := by
  rw [runEdges] at h
  cases hu : step s with
  | next u => exact ⟨u, rfl, by simpa only [hu] using h⟩
  | fault r => simp [hu] at h
  | refused r => simp [hu] at h

theorem runEdges_cons {s t : State} (m : Nat) (h : step s = .next t) : runEdges (m + 1) s = runEdges m t := by
  simp only [runEdges, h]

theorem noResetFor_of_step {s t : State} {n : Nat} (h : s.noResetFor (n + 1)) (hst : step s = .next t) :
    t.noResetFor n :=
  fun m hm u hu => h (m + 1) (by omega) u ((runEdges_cons m hst).trans hu)

theorem host_of_transition {s t : State} (htr : Transition s t) : t.host = s.advance.host := by
  cases htr <;> rfl

theorem sample_of_drivenBy {s : State} {i : Inputs} {ins : List Inputs} (h : s.drivenBy (i :: ins)) : s.sample = i := by
  obtain ⟨rest, hrest⟩ := h
  exact sample_drive hrest

theorem drivenBy_of_step {s t : State} {i : Inputs} {ins : List Inputs} (h : s.drivenBy (i :: ins))
    (hst : step s = .next t) : t.drivenBy ins := by
  obtain ⟨rest, hrest⟩ := h
  exact ⟨rest, (host_of_transition (transition_of_step hst)).trans (advance_host_drive hrest)⟩

theorem noResetFor_of_drivenBy {s : State} {ins : List Inputs} (h : s.drivenBy ins) (hr : ∀ i ∈ ins, i.rst = 0) :
    s.noResetFor ins.length := by
  induction ins generalizing s with
  | nil => exact fun m hm => absurd hm (Nat.not_lt_zero m)
  | cons i ins ih =>
    obtain ⟨hr0, hr1⟩ := List.forall_mem_cons.mp hr
    rintro (_ | m) hm t hrun
    · cases hrun
      rwa [sample_of_drivenBy h]
    · obtain ⟨u, hst, hrun⟩ := exists_step_of_runEdges hrun
      exact ih (drivenBy_of_step h hst) hr1 m (Nat.lt_of_succ_lt_succ hm) t hrun

/-! ## One cycle of a transmission -/

/-- The block sends bit `b` of `f` and is in cycle `j` of that bit's period (R95). -/
structure State.SendsBit (c : Config) (f : FrameBits) (b j : Nat) (s : State) : Prop where
  cfg : s.cfg = c
  frame : s.frame = f
  index : s.idx.toNat = b
  inFrame : b < 40
  inPeriod : j < c.period
  notDone : s.done = 0
  pulse : j < c.pwCycles → s.st = .pulse ∧ s.cnt = j ∧ s.pulses (BitVec.ofBool (f.getLsbD b))
  gap : c.pwCycles ≤ j → s.st = .gap ∧ s.cnt = j - c.pwCycles ∧ s.linesHigh

/-- The cycle after the completing edge (R95). -/
def State.finished (s : State) : Prop := s.st = .idle ∧ s.done = 1 ∧ s.res = .ok ∧ s.linesHigh

section
variable {c : Config} {f : FrameBits} {b j : Nat} {s : State} (hw : c.wf = true)

theorem State.SendsBit.st_ne_idle (h : s.SendsBit c f b j) : s.st ≠ .idle := by
  rcases Nat.lt_or_ge j c.pwCycles with hj | hj
  · simp [(h.pulse hj).1]
  · simp [(h.gap hj).1]

include hw

/-- Before the last cycle of a bit's period the transmission of that bit goes on. -/
theorem step_within_period (h : s.SendsBit c f b j) (hr : s.sample.rst = 0) (hj : j + 1 < c.period) :
    ∃ t, step s = .next t ∧ t.SendsBit c f b (j + 1) := by
  obtain rfl := h.cfg
  rcases Nat.lt_or_ge j s.cfg.pwCycles with hp | hg
  · obtain ⟨hst, hcnt, hlines⟩ := h.pulse hp
    obtain ⟨-, hlast, hmore⟩ := pulseArmOfStep s hw hst hr (by omega)
    by_cases hl : s.cnt = s.cfg.pwCycles - 1
    · exact ⟨_, hlast hl, rfl, h.frame, h.index, h.inFrame, hj, rfl, fun _ => by omega,
        fun _ => ⟨rfl, by simp only; omega, rfl, rfl⟩⟩
    · exact ⟨_, hmore hl, rfl, h.frame, h.index, h.inFrame, hj, rfl, fun _ => ⟨hst, by simp only [hcnt], hlines⟩,
        fun _ => by omega⟩
  · obtain ⟨hst, hcnt, hlines⟩ := h.gap hg
    have hperiod : s.cfg.period = s.cfg.pwCycles + s.cfg.ipiCycles := rfl
    have hidx := h.index
    have hfit := h.inFrame
    obtain ⟨hmore, -, -⟩ := gapArmOfStep s hw hst hr (by omega) (by omega)
    exact ⟨_, hmore (by omega), rfl, h.frame, h.index, h.inFrame, hj, rfl, fun _ => by omega,
      fun _ => ⟨hst, by simp only; omega, hlines⟩⟩

/-- In the last cycle of a bit's period the GAP arm is at the end of its interval. -/
theorem State.SendsBit.last (h : s.SendsBit c f b j) (hj : j + 1 = c.period) :
    s.st = .gap ∧ s.cnt = c.ipiCycles - 1 ∧ s.linesHigh := by
  have hperiod : c.period = c.pwCycles + c.ipiCycles := rfl
  have hpos := Config.ipiCycles_pos hw
  obtain ⟨hst, hcnt, hlines⟩ := h.gap (by omega)
  exact ⟨hst, by omega, hlines⟩

/-- The last edge of a bit's period starts the bit below it. -/
theorem step_to_next_bit (h : s.SendsBit c f (b + 1) j) (hr : s.sample.rst = 0) (hj : j + 1 = c.period) :
    ∃ t, step s = .next t ∧ t.SendsBit c f b 0 := by
  obtain ⟨hst, hcnt, hd0, hd1⟩ := h.last hw hj
  obtain rfl := h.cfg
  have hidx := h.index
  have hfit := h.inFrame
  have hne : s.idx ≠ 0 := fun h0 => by simp [h0] at hidx
  have hlt : s.cnt < s.cfg.ipiCycles := by
    have := Config.ipiCycles_pos hw
    omega
  obtain ⟨-, hnext, -⟩ := gapArmOfStep s hw hst hr hlt (by omega)
  have hpos := Config.pwCycles_pos hw
  refine ⟨_, hnext hcnt hne, rfl, h.frame, by simp only [idx_sub_one hne]; omega, by omega, by omega, rfl,
    fun _ => ⟨rfl, rfl, ?_⟩, fun _ => by omega⟩
  apply pulses_of_levels <;> simp [hidx, h.frame, hd0, hd1]

/-- The last edge of the last bit's period completes the command. -/
theorem step_to_finished (h : s.SendsBit c f 0 j) (hr : s.sample.rst = 0) (hj : j + 1 = c.period) :
    ∃ t, step s = .next t ∧ t.finished := by
  obtain ⟨hst, hcnt, hlines⟩ := h.last hw hj
  obtain rfl := h.cfg
  have hidx : s.idx = 0 := BitVec.eq_of_toNat_eq (by simpa using h.index)
  exact ⟨_, step_complete hw ⟨hst, hr, hcnt, hidx⟩, rfl, rfl, rfl, hlines⟩

end

/-! ## The cycles after an acceptance -/

/-- R120: the accepting edge starts the frame's first bit. -/
theorem step_to_first_bit {s : State} {op : BitVec 4} {fmt : Format} {data : Credential} (hw : s.cfg.wf = true)
    (hlines : s.linesHigh) (ha : s.acceptsAt op fmt data) :
    ∃ t, step s = .next t ∧ t.SendsBit s.cfg (buildFrame data fmt).frame (formatBits fmt - 1) 0 := by
  obtain ⟨hd0, hd1⟩ := hlines
  have hpos := Config.pwCycles_pos hw
  have hlen := formatBits_pos fmt
  have hfit := formatBits_le fmt
  refine ⟨_, step_accept hw ha, rfl, rfl, buildFrame_idx data fmt, by omega, ?_, rfl, fun _ => ⟨rfl, rfl, ?_⟩,
    fun _ => by omega⟩
  · rw [Config.period]
    omega
  · apply pulses_of_levels <;> simp [accept_eq, hd0, hd1]

/-- From the first cycle of a bit's period, reached after `m` edges, the block comes to each later one. -/
theorem runEdges_within_period {c : Config} {f : FrameBits} {b m j : Nat} {s t : State} (hw : c.wf = true)
    (hrun : runEdges m s = .next t) (h : t.SendsBit c f b 0) (hq : s.noResetFor (m + j)) (hj : j < c.period) :
    ∃ u, runEdges (m + j) s = .next u ∧ u.SendsBit c f b j := by
  induction j with
  | zero => exact ⟨t, hrun, h⟩
  | succ j ih =>
    obtain ⟨u, hu, hsend⟩ := ih (fun n hn => hq n (by omega)) (by omega)
    obtain ⟨v, hv, hsend'⟩ := step_within_period hw hsend (hq (m + j) (by omega) u hu) hj
    exact ⟨v, runEdges_succ hu hv, hsend'⟩

section
variable {s : State} {op : BitVec 4} {fmt : Format} {data : Credential} (hw : s.cfg.wf = true)
  (hlines : s.linesHigh) (ha : s.acceptsAt op fmt data) (hq : s.noResetFor (1 + formatBits fmt * s.cfg.period))
include hw hlines ha hq

/-- R95: the bit and the cycle of its period that the block is in, `k * P + j` cycles after the accepting edge. -/
theorem runEdges_sendsBit {k j : Nat} (hk : k < formatBits fmt) (hj : j < s.cfg.period) :
    ∃ t, runEdges (1 + k * s.cfg.period + j) s = .next t ∧
      t.SendsBit s.cfg (buildFrame data fmt).frame (formatBits fmt - 1 - k) j := by
  have hle : (k + 1) * s.cfg.period ≤ formatBits fmt * s.cfg.period := Nat.mul_le_mul_right _ hk
  rw [Nat.succ_mul] at hle
  induction k generalizing j with
  | zero =>
    obtain ⟨t, hst, hsend⟩ := step_to_first_bit hw hlines ha
    exact runEdges_within_period hw (by simp [runEdges, hst]) hsend (fun n hn => hq n (by omega)) hj
  | succ k ih =>
    rw [Nat.succ_mul] at hle ⊢
    obtain ⟨t, hrun, hsend⟩ := ih (j := s.cfg.period - 1) (by omega) (by omega) (by omega)
    rw [show formatBits fmt - 1 - k = formatBits fmt - 1 - (k + 1) + 1 by omega] at hsend
    obtain ⟨u, hst, hsend'⟩ := step_to_next_bit hw hsend (hq _ (by omega) t hrun) (by omega)
    have hcount : 1 + k * s.cfg.period + (s.cfg.period - 1) + 1 = 1 + (k * s.cfg.period + s.cfg.period) := by omega
    exact runEdges_within_period hw (hcount ▸ runEdges_succ hrun hst) hsend' (fun n hn => hq n (by omega)) hj

/-- R95: the command is complete `L * P` cycles after the accepting edge. -/
theorem runEdges_finished : ∃ t, runEdges (1 + formatBits fmt * s.cfg.period) s = .next t ∧ t.finished := by
  obtain ⟨l, hl⟩ := Nat.exists_eq_succ_of_ne_zero (formatBits_pos fmt).ne'
  have hperiod : s.cfg.period = s.cfg.pwCycles + s.cfg.ipiCycles := rfl
  have hpos := Config.pwCycles_pos hw
  obtain ⟨t, hrun, hsend⟩ := runEdges_sendsBit hw hlines ha hq (k := l) (j := s.cfg.period - 1) (by omega) (by omega)
  have hcount : 1 + l * s.cfg.period + (s.cfg.period - 1) + 1 = 1 + formatBits fmt * s.cfg.period := by
    rw [hl, Nat.succ_mul]
    omega
  rw [show formatBits fmt - 1 - l = 0 by omega] at hsend
  obtain ⟨u, hst, hfin⟩ := step_to_finished hw hsend (hq _ (by omega) t hrun) (by omega)
  exact ⟨u, hcount ▸ runEdges_succ hrun hst, hfin⟩

end

/-- The premises of the statements about the wire, in the terms of this file. -/
theorem acceptsAt_noResetFor_of_drivenBy {s : State} {a : Inputs} {ins : List Inputs} {op : BitVec 4} {fmt : Format}
    {data : Credential} {n : Nat} (hs : s.st = .idle) (hseen : s.resetSeen = true) (hd : s.drivenBy (a :: ins))
    (hr : a.rst = 0) (hv : a.cmdValid = 1) (hc : classify a.cmd = .accept op fmt data) (hn : ins.length = n)
    (hrs : ∀ i ∈ ins, i.rst = 0) : s.acceptsAt op fmt data ∧ s.noResetFor (1 + n) := by
  have hsample := sample_of_drivenBy hd
  have hq := noResetFor_of_drivenBy hd (List.forall_mem_cons.mpr ⟨hr, hrs⟩)
  rw [List.length_cons, hn, Nat.add_comm] at hq
  exact ⟨⟨⟨hs, by rwa [hsample], by rwa [hsample], hseen⟩, by rwa [hsample]⟩, hq⟩

/-- Settles O53: the cycles of the transmission, and the one after it. -/
theorem waveformOfCommand : Obligations.WaveformOfCommand := by
  intro s a ins op fmt data hw hs hseen hlines hd hr hv hc hn hrs
  obtain ⟨ha, hq⟩ := acceptsAt_noResetFor_of_drivenBy hs hseen hd hr hv hc hn hrs
  refine ⟨fun k hk j hj => ?_, runEdges_finished hw hlines ha hq⟩
  obtain ⟨t, hrun, hsend⟩ := runEdges_sendsBit hw hlines ha hq hk hj
  refine ⟨t, hrun, (busy_eq_one_iff t.st).mpr hsend.st_ne_idle, fun hp => ?_, fun hg => ?_⟩
  · exact (hsend.pulse hp).2.2
  · exact (hsend.gap hg).2.2

/-- R97: a bit's period is 1050 µs at every well-formed clock. -/
theorem period_duration {c : Config} (hw : c.wf = true) : c.period * 1000000 = 1050 * c.fClkHz := by
  obtain ⟨hpw, hipi, -, -⟩ := Config.wholeCycles_spec (Config.wf_spec hw).1
  rw [Config.period, Nat.add_mul, hpw, hipi, ← Nat.add_mul]

/-- Settles O55: cycle `n` after the acceptance is cycle `(n - 1) % P` of bit `(n - 1) / P`; the quiet tail is the last
bit's interval and the cycle after it. -/
theorem busyExactlyTheDuration : Obligations.BusyExactlyTheDuration := by
  intro s a ins op fmt data hw hs hseen hlines hd hr hv hc hn hrs
  obtain ⟨ha, hq⟩ := acceptsAt_noResetFor_of_drivenBy hs hseen hd hr hv hc hn hrs
  obtain ⟨v, hrunv, hidle, hdone, -, hquiet⟩ := runEdges_finished hw hlines ha hq
  have hperiod : s.cfg.period = s.cfg.pwCycles + s.cfg.ipiCycles := rfl
  have hpos := Config.pwCycles_pos hw
  refine ⟨?duration, fun n h1 hle => ?busy, fun j hj => ?quiet, v, hrunv, by rw [hidle]; rfl, hdone⟩
  case duration => rw [Nat.mul_assoc, period_duration hw, Nat.mul_assoc]
  case busy =>
    have hk : (n - 1) / s.cfg.period < formatBits fmt := Nat.div_lt_of_lt_mul (by rw [Nat.mul_comm]; omega)
    have hcount : 1 + (n - 1) / s.cfg.period * s.cfg.period + (n - 1) % s.cfg.period = n := by
      have := Nat.div_add_mod' (n - 1) s.cfg.period
      omega
    obtain ⟨t, hrun, hsend⟩ := runEdges_sendsBit hw hlines ha hq hk (Nat.mod_lt (n - 1) (by omega))
    have hst := hsend.st_ne_idle
    refine ⟨t, hcount ▸ hrun, (busy_eq_one_iff t.st).mpr hst, bit_ne_one.mp fun h => ?_, hsend.notDone⟩
    exact hst ((cmdReady_eq_one_iff t).mp h).1
  case quiet =>
    obtain ⟨l, hl⟩ := Nat.exists_eq_succ_of_ne_zero (formatBits_pos fmt).ne'
    have hbits : formatBits fmt * s.cfg.period = l * s.cfg.period + s.cfg.period := by rw [hl, Nat.succ_mul]
    rcases Nat.lt_or_eq_of_le hj with hlt | heq
    · obtain ⟨t, hrun, hsend⟩ :=
        runEdges_sendsBit hw hlines ha hq (k := l) (j := s.cfg.pwCycles + j) (by omega) (by omega)
      have hcount : 1 + l * s.cfg.period + (s.cfg.pwCycles + j) =
          1 + formatBits fmt * s.cfg.period - s.cfg.ipiCycles + j := by omega
      exact ⟨t, hcount ▸ hrun, (hsend.gap (Nat.le_add_right ..)).2.2⟩
    · have hcount : 1 + formatBits fmt * s.cfg.period - s.cfg.ipiCycles + j = 1 + formatBits fmt * s.cfg.period := by
        omega
      exact ⟨v, by rwa [hcount], hquiet⟩

/-! ## What a reader sees -/

/-- The levels of D0 and D1 in a pulse for a bit (R94): `levels_of_pulses` reads them off the lines. -/
def pulseLevels (x : Bool) : Bit × Bit := (bif x then HIGH else LOW, bif x then LOW else HIGH)

theorem levels_of_pulses {s : State} {x : Bool} (h : s.pulses (BitVec.ofBool x)) : (s.d0, s.d1) = pulseLevels x := by
  cases x with
  | false => exact Prod.ext_iff.mpr (h.1 rfl)
  | true => exact Prod.ext_iff.mpr (h.2 rfl)

theorem levels_of_linesHigh {s : State} (h : s.linesHigh) : (s.d0, s.d1) = (HIGH, HIGH) := Prod.ext_iff.mpr h

/-- A reader sees the bits `bits` in line samples, and `changes` level changes (R99). -/
def Reads (before : Bit × Bit) (samples : List (Bit × Bit)) (bits : List Bit) (changes : Nat) : Prop :=
  readerBits before samples = bits ∧ lineTransitions before samples = changes

section
variable {l : Bit × Bit} {ls : List (Bit × Bit)} {bits : List Bit} {n : Nat}

theorem reads_stay (h : Reads l ls bits n) : Reads l (l :: ls) bits n := by
  have hno : ∀ x : Bit, ¬ (x = HIGH ∧ x = LOW) := by decide
  simpa [Reads, readerBits, lineTransitions, hno] using h

/-- The end of a pulse is one level change and no bit. -/
theorem reads_rise (x : Bool) (h : Reads (HIGH, HIGH) ls bits n) :
    Reads (pulseLevels x) ((HIGH, HIGH) :: ls) bits (n + 1) := by
  obtain ⟨hbits, hchanges⟩ := h
  cases x <;> simp [Reads, readerBits, lineTransitions, pulseLevels, hbits, hchanges, Nat.add_comm]

/-- The start of a pulse is one level change and the pulse's bit. -/
theorem reads_fall (x : Bool) (h : Reads (pulseLevels x) ls bits n) :
    Reads (HIGH, HIGH) (pulseLevels x :: ls) (BitVec.ofBool x :: bits) (n + 1) := by
  obtain ⟨hbits, hchanges⟩ := h
  cases x <;> simp_all [Reads, readerBits, lineTransitions, pulseLevels, Nat.add_comm]

end

theorem lineSamples_cons {s t : State} (n : Nat) (h : step s = .next t) :
    lineSamples s (n + 1) = (t.d0, t.d1) :: lineSamples t n := by
  simp only [lineSamples, h]

section
variable {c : Config} {f : FrameBits} {b j : Nat} {s : State}

/-- Within a bit's period the next sample shows no change, or the end of the pulse. -/
theorem reads_within_period {n k : Nat} {t : State} {bits : List Bit} (h : s.SendsBit c f b j)
    (ht : t.SendsBit c f b (j + 1)) (hst : step s = .next t)
    (hrest : Reads (t.d0, t.d1) (lineSamples t n) bits (k + if j + 1 < c.pwCycles then 1 else 0)) :
    Reads (s.d0, s.d1) (lineSamples s (n + 1)) bits (k + if j < c.pwCycles then 1 else 0) := by
  rw [lineSamples_cons n hst]
  rcases Nat.lt_or_ge (j + 1) c.pwCycles with hp | hg
  · have hj : j < c.pwCycles := by omega
    rw [if_pos hp] at hrest
    rw [levels_of_pulses (ht.pulse hp).2.2] at hrest ⊢
    rw [levels_of_pulses (h.pulse hj).2.2, if_pos hj]
    exact reads_stay hrest
  · rw [if_neg (by omega)] at hrest
    rw [levels_of_linesHigh (ht.gap hg).2.2] at hrest ⊢
    rcases Nat.lt_or_ge j c.pwCycles with hj | hj
    · rw [levels_of_pulses (h.pulse hj).2.2, if_pos hj]
      exact reads_rise _ hrest
    · rw [levels_of_linesHigh (h.gap hj).2.2, if_neg (by omega)]
      exact reads_stay hrest

/-- R99: from any cycle of bit `b` to the end of the command a reader sees the bits below `b`; the lines change twice for
each, and once more when the pulse of `b` has not ended. -/
theorem reads_of_sendsBit {n : Nat} (hw : c.wf = true) (h : s.SendsBit c f b j) (hn : n + j = (b + 1) * c.period)
    (hq : s.noResetFor n) :
    Reads (s.d0, s.d1) (lineSamples s n) (sendingOrder f b) (2 * b + if j < c.pwCycles then 1 else 0) := by
  have hj := h.inPeriod
  rw [Nat.succ_mul] at hn
  induction n generalizing b j s with
  | zero => omega
  | succ n ih =>
    have hr : s.sample.rst = 0 := hq 0 (Nat.succ_pos n) s rfl
    rcases Nat.lt_or_eq_of_le (Nat.succ_le_of_lt hj) with hlt | hlast
    · obtain ⟨t, hst, ht⟩ := step_within_period hw h hr hlt
      exact reads_within_period h ht hst (ih ht (by omega) (noResetFor_of_step hq hst) hlt)
    · obtain ⟨hgap, -, hlines⟩ := h.last hw hlast
      have hj' : ¬ j < c.pwCycles := fun hp => by simp [(h.pulse hp).1] at hgap
      rw [levels_of_linesHigh hlines, if_neg hj']
      cases b with
      | zero =>
        obtain ⟨t, hst, -, -, -, hlines'⟩ := step_to_finished hw h hr hlast
        obtain rfl : n = 0 := by omega
        rw [lineSamples_cons 0 hst, levels_of_linesHigh hlines']
        exact reads_stay ⟨rfl, rfl⟩
      | succ b =>
        obtain ⟨t, hst, ht⟩ := step_to_next_bit hw h hr hlast
        have hpos : 0 < c.pwCycles := Config.pwCycles_pos hw
        rw [Nat.succ_mul] at hn
        have hrest := ih ht (by omega) (noResetFor_of_step hq hst) ht.inPeriod
        rw [if_pos hpos] at hrest
        rw [lineSamples_cons n hst]
        rw [levels_of_pulses (ht.pulse hpos).2.2] at hrest ⊢
        exact reads_fall _ hrest

end

/-- Settles O54: the accepting edge shows the first bit, and the transmission the ones below it. -/
theorem readerSeesTheFrame : Obligations.ReaderSeesTheFrame := by
  intro s a ins op fmt data hw hs hseen hlines hd hr hv hc hn hrs
  obtain ⟨ha, hq⟩ := acceptsAt_noResetFor_of_drivenBy hs hseen hd hr hv hc hn hrs
  obtain ⟨l, hl⟩ := Nat.exists_eq_succ_of_ne_zero (formatBits_pos fmt).ne'
  obtain ⟨t, hst, ht⟩ := step_to_first_bit hw hlines ha
  rw [hl, Nat.succ_sub_one] at ht
  rw [Nat.add_comm] at hq
  have hpos : 0 < s.cfg.pwCycles := Config.pwCycles_pos hw
  have hrest := reads_of_sendsBit hw ht (by rw [hl]; rfl) (noResetFor_of_step hq hst)
  rw [if_pos hpos] at hrest
  rw [Nat.add_comm 1, lineSamples_cons _ hst, levels_of_linesHigh hlines]
  rw [levels_of_pulses (ht.pulse hpos).2.2] at hrest ⊢
  rw [hl] at hrest ⊢
  exact reads_fall _ hrest

end Sys2Proof.Machine
end

