-- ==== Sys2Proof/Proofs/Parity.lean ====
section
/-! PROOFS. The parity calculator (41_send.md R110 to R114): the halves split the field, and each half with its parity bit
has the parity that R112 and R113 ask for. -/

namespace Sys2Proof.Machine

/-- R11: `popcount` counts the positions of the set bits. -/
theorem popcountBelow_eq_length_filter {w : Nat} (v : BitVec w) (k : Nat) :
    popcountBelow v k = ((List.range k).filter (fun i => v.getLsbD i)).length := by
  induction k with
  | zero => rfl
  | succ k ih =>
    rw [popcountBelow, ih, List.range_succ, List.filter_append, List.length_append]
    cases h : v.getLsbD k <;> simp [h]

theorem popcount_bit (b : Bit) : popcount b = b.toNat := by
  revert b
  decide

theorem upperSize_le (n : Nat) : upperSize n ≤ n := by
  unfold upperSize
  omega

section
variable {n : Nat} (d : BitVec n)

theorem upperHalf_getLsbD {i : Nat} (h : i < upperSize n) :
    (upperHalf d).getLsbD i = d.getLsbD (n - upperSize n + i) := by
  simp [upperHalf, h]

theorem lowerHalf_getLsbD {i : Nat} (h : i < n - upperSize n) : (lowerHalf d).getLsbD i = d.getLsbD i := by
  simp [lowerHalf, h]

/-- R111: each bit of the field is counted in exactly one half. -/
theorem popcount_halves : popcount (upperHalf d) + popcount (lowerHalf d) = popcount d := by
  have hlow : popcount (lowerHalf d) = popcountBelow d (n - upperSize n) :=
    popcountBelow_congr _ _ _ fun _ hi => lowerHalf_getLsbD d hi
  have hsplit := popcountBelow_add d (upperHalf d) (n - upperSize n) (upperSize n) fun _ hi => upperHalf_getLsbD d hi
  rw [Nat.sub_add_cancel (upperSize_le n)] at hsplit
  rw [hlow, Nat.add_comm]
  exact hsplit.symm

/-- R112: the even-parity bit makes the count of the upper half even. -/
theorem popcount_upperHalf_add_even : (popcount (upperHalf d) + (evenParity d).toNat) % 2 = 0 := by
  rw [evenParity, xorReduce_toNat]
  omega

/-- R113: the odd-parity bit makes the count of the lower half odd. -/
theorem popcount_lowerHalf_add_odd : (popcount (lowerHalf d) + (oddParity d).toNat) % 2 = 1 := by
  have hnot : ∀ b : Bit, (~~~b).toNat = 1 - b.toNat := by decide
  rw [oddParity, hnot, xorReduce_toNat]
  omega

end

/-- Settles O34: the bit is the XOR of the upper half, whose value is the count's remainder. -/
theorem evenParityBit : Obligations.EvenParityBit :=
  fun _ d => ⟨xorReduce_eq_one _, popcount_upperHalf_add_even d⟩

/-- Settles O35: the bit is the complement of the XOR of the lower half. -/
theorem oddParityBit : Obligations.OddParityBit := by
  intro n d
  have hnot : ∀ b : Bit, ~~~b = 1 ↔ b ≠ 1 := by decide
  refine ⟨?_, popcount_lowerHalf_add_odd d⟩
  rw [oddParity, hnot, ne_eq, xorReduce_eq_one]
  exact Nat.mod_two_ne_one

/-- Settles O36: the halves bit for bit, the count over both of them, and `popcount` by the positions of the set bits. -/
theorem halvesSplitTheField : Obligations.HalvesSplitTheField :=
  fun _ d => ⟨rfl, fun _ => upperHalf_getLsbD d, fun _ => lowerHalf_getLsbD d, popcount_halves d,
    popcountBelow_eq_length_filter d _, xorReduce_eq_one d⟩

end Sys2Proof.Machine
end

