-- ==== Sys2Proof/Proofs/Frame.lean ====
section
/-! PROOFS. The frame builder (41_send.md R115 to R119): a parity frame by its three parts, and from them what a receiver
counts (R124) and what it reads when it strips the parity bits (R125). -/

namespace Sys2Proof.Machine

theorem extractLsb'_one {w : Nat} (x : BitVec w) (i : Nat) : x.extractLsb' i 1 = BitVec.ofBool (x.getLsbD i) := by
  ext j hj
  obtain rfl : j = 0 := by omega
  simp

section
variable {n : Nat} (hn : n + 2 ≤ 40) (data : Credential) (len : BitVec 6)

/-- R118: the frame is a function of the field. -/
theorem parityFrame_congr {x y : Credential} (h : x.extractLsb' 0 n = y.extractLsb' 0 n) :
    parityFrame n x len = parityFrame n y len := by
  simp only [parityFrame, h]

include hn

/-- R116: `F[L-1] = e`. -/
theorem parityFrame_first :
    (parityFrame n data len).frame.extractLsb' (n + 1) 1 = evenParity (data.extractLsb' 0 n) := by
  rw [parityFrame, BitVec.extractLsb'_setWidth_of_le (by omega), extractLsb'_append_high _ _ _ _ (by omega)]
  exact BitVec.extractLsb'_append_eq_left

/-- R116: `F[L-2:1] = data[n-1:0]`. -/
theorem parityFrame_field : (parityFrame n data len).frame.extractLsb' 1 n = data.extractLsb' 0 n := by
  rw [parityFrame, BitVec.extractLsb'_setWidth_of_le (by omega), extractLsb'_append_high _ _ _ _ le_rfl]
  exact BitVec.extractLsb'_append_eq_right

omit hn in
/-- R116: `F[0] = o`. -/
theorem parityFrame_last : (parityFrame n data len).frame.extractLsb' 0 1 = oddParity (data.extractLsb' 0 n) := by
  rw [parityFrame, BitVec.extractLsb'_setWidth_of_le (by decide)]
  exact BitVec.extractLsb'_append_eq_right

/-- R116: each data bit stands one above its place in the field. -/
theorem parityFrame_getLsbD_field {i : Nat} (hi : i < n) :
    (parityFrame n data len).frame.getLsbD (i + 1) = data.getLsbD i := by
  have h := congrArg (fun x => x.getLsbD i) (parityFrame_field hn data len)
  simpa [hi, Nat.add_comm] using h

omit hn in
/-- R116: the frame register is 0 above the frame. -/
theorem parityFrame_getLsbD_above {i : Nat} (hi : n + 2 ≤ i) : (parityFrame n data len).frame.getLsbD i = false := by
  rw [parityFrame, BitVec.getLsbD_setWidth, BitVec.getLsbD_of_ge _ i (by omega), Bool.and_false]

/-- R124: the upper half of the field with the even-parity bit before it. -/
theorem parityFrame_upper_even :
    popcount ((parityFrame n data len).frame.extractLsb' (1 + (n - upperSize n)) (1 + upperSize n)) % 2 = 0 := by
  have hu := upperSize_le n
  rw [← append_of_parts _ _ (n + 1) (by omega), parityFrame_first hn,
    ← extractLsb'_part _ 1 n _ _ (by omega), parityFrame_field hn, popcount_append, popcount_bit, Nat.add_comm]
  exact popcount_upperHalf_add_even _

/-- R124: the lower half of the field with the odd-parity bit after it. -/
theorem parityFrame_lower_odd :
    popcount ((parityFrame n data len).frame.extractLsb' 0 (n - upperSize n + 1)) % 2 = 1 := by
  rw [← append_of_parts _ 0 1 rfl, parityFrame_last,
    ← extractLsb'_part _ 1 n 0 _ (by omega), parityFrame_field hn, popcount_append, popcount_bit]
  exact popcount_lowerHalf_add_odd _

/-- R125: the stripped frame is the whole `data` exactly when that fits the field. -/
theorem parityFrame_field_toNat_eq_iff :
    ((parityFrame n data len).frame.extractLsb' 1 n).toNat = data.toNat ↔ data.toNat < 2 ^ n := by
  rw [parityFrame_field hn, BitVec.extractLsb'_toNat, Nat.shiftRight_zero, Nat.mod_eq_iff_lt (Nat.two_pow_pos n).ne']

/-- The clauses of R116, for any width of the field that the frame register holds. -/
theorem parityFrame_layout :
    let b := parityFrame n data len
    let d := data.extractLsb' 0 n
    b.pv = 1 ∧ b.even = evenParity d ∧ b.odd = oddParity d ∧
    BitVec.ofBool (b.frame.getLsbD (n + 1)) = evenParity d ∧
    (∀ i < n, b.frame.getLsbD (i + 1) = data.getLsbD i) ∧
    BitVec.ofBool (b.frame.getLsbD 0) = oddParity d ∧
    (∀ i, n + 2 ≤ i → b.frame.getLsbD i = false) :=
  ⟨rfl, rfl, rfl, (extractLsb'_one _ _).symm.trans (parityFrame_first hn data len),
    fun _ => parityFrame_getLsbD_field hn data len, (extractLsb'_one _ _).symm.trans (parityFrame_last data len),
    fun _ => parityFrame_getLsbD_above data len⟩

end

/-- Settles O37: both formats are parity frames, of 24 and of 32 data bits. -/
theorem parityFrameLayout : Obligations.ParityFrameLayout := by
  rintro data fmt n (⟨rfl, rfl⟩ | ⟨rfl, rfl⟩)
  · exact ⟨rfl, parityFrame_layout (by decide) data 26⟩
  · exact ⟨rfl, parityFrame_layout (by decide) data 34⟩

/-- Settles O38: R117 is the builder's case for format 40. -/
theorem plainFrameLayout : Obligations.PlainFrameLayout := fun _ => rfl

/-- Settles O39: the builder reads the field alone. -/
theorem dataAboveFieldIgnored : Obligations.DataAboveFieldIgnored := by
  refine fun x y => ⟨parityFrame_congr 26, parityFrame_congr 34, fun h => ?_⟩
  rw [plainFrameLayout, plainFrameLayout, h]

/-- Settles O40: the halves are 12 and 12 bits of format 26's field, 16 and 16 of format 34's. -/
theorem receiverParityHolds : Obligations.ReceiverParityHolds :=
  fun data =>
    ⟨⟨parityFrame_upper_even (n := 24) (by decide) data 26, parityFrame_lower_odd (n := 24) (by decide) data 26⟩,
      parityFrame_upper_even (n := 32) (by decide) data 34, parityFrame_lower_odd (n := 32) (by decide) data 34⟩

/-- Settles O41: between the parity bits stands the field, which is `data` modulo `2^n`. -/
theorem strippedFrameIsData : Obligations.StrippedFrameIsData :=
  fun data => ⟨parityFrame_field (by decide) data 26, parityFrame_field_toNat_eq_iff (by decide) data 26,
    parityFrame_field (by decide) data 34, parityFrame_field_toNat_eq_iff (by decide) data 34⟩

end Sys2Proof.Machine
end

