-- ==== Sys2Proof/Proofs/Commands.lean ====
section
/-! PROOFS. The edges that accept and reject a command, SEND with a legal format, and what every command leaves unchanged
(41_send.md R119 to R122). -/

namespace Sys2Proof.Machine

/-- Settles O15: the step is `accept` after the step's defaults. -/
theorem acceptingEdge : Obligations.AcceptingEdge := by
  intro s op fmt data hw h
  rw [step_accept hw h, accept_eq]
  rfl

/-- Settles O16: the step is `raise` after the step's defaults. -/
theorem rejectingEdge : Obligations.RejectingEdge :=
  fun _ _ hw h => step_reject hw h

theorem eq_formatCode_of_toNat {b : BitVec 8} {fmt : Format} (h : b.toNat = formatBits fmt) : b = formatCode fmt := by
  rw [formatCode, ← h, BitVec.ofNat_toNat, BitVec.setWidth_eq]

/-- SEND with the code of a format accepts (R122). -/
theorem exec_send_of_format {h : Header} {fmt : Format} (hb : h.bits = formatCode fmt) (opa opb : BitVec 32)
    (s : State) : exec (.send h opa opb) s = .next (s.accept 1 fmt (opa ++ opb)) := by
  simp only [exec, execSend, (Format.ofBits_eq_some h.bits fmt).mpr hb]
  rfl

/-- Settles O26: SEND accepts, and the format's code is the BITS of the word. -/
theorem sendAccepted : Obligations.SendAccepted := by
  intro h opa opb fmt s hbits
  have hb := eq_formatCode_of_toNat hbits
  rw [exec_send_of_format hb, accept_eq, hb]

/-- A command does what the verdict on its word asks for. -/
theorem exec_eq_perform (i : Instr) (s : State) : exec i s = .next (s.perform (encode i)) := by
  rw [← exec_decodeWord, decodeOfEncode]

/-- Neither verdict writes `oe`, `dbg` or a field of the model's own (R120, R121). -/
theorem perform_frame (w : CmdWord) (s : State) :
    (s.perform w).oe = s.oe ∧ (s.perform w).dbg = s.dbg ∧ (s.perform w).cfg = s.cfg ∧ (s.perform w).host = s.host ∧
    (s.perform w).resetSeen = s.resetSeen ∧ (s.perform w).edge = s.edge := by
  cases h : classify w with
  | accept op fmt data => simp [perform_of_accept h]
  | reject code => simp [perform_of_reject h]

/-- Settles O32: `accept` writes no strobe, `raise` nothing of the transmission, and the trace output only with
`dbg = 1`. -/
theorem commandFrames : Obligations.CommandFrames := by
  intro i s t ht
  rw [exec_eq_perform] at ht
  cases ht
  obtain ⟨hoe, hdbg, hcfg, hhost, hseen, hedge⟩ := perform_frame (encode i) s
  refine ⟨hoe, hdbg, hcfg, hhost, hseen, hedge, ?_, ?_⟩
  · rintro ⟨op, fmt, data, h⟩
    simp [perform_of_accept h]
  · rintro ⟨code, h⟩
    simp +contextual [perform_of_reject h]

end Sys2Proof.Machine
end

