-- ==== Sys2Proof/Proofs/Convenience.lean ====
section
/-! PROOFS. The convenience commands (42_convenience.md R140 to R145): the state after an accepted parity frame in terms of
the operands its field is made of, and SEND with the same packed data. -/

namespace Sys2Proof.Machine

/-! ## Concatenations and packed data -/

/-- A part of a concatenation that holds the whole of its high operand. -/
theorem extractLsb'_append_across {m n k lo : Nat} (x : BitVec m) (y : BitVec n) (h : n = lo + k) :
    (x ++ y).extractLsb' lo (m + k) = x ++ y.extractLsb' lo k := by
  rw [← append_of_parts _ lo n h, BitVec.extractLsb'_append_eq_left, extractLsb'_append_low _ _ _ _ h.ge]

/-- The frame of a field made of two operands, with the operands put side by side. -/
theorem setWidth_append_middle {j m k l : Nat} (e : BitVec j) (x : BitVec m) (y : BitVec k) (o : BitVec l) (w : Nat) :
    (e ++ x ++ y ++ o).setWidth w = (e ++ (x ++ y) ++ o).setWidth w := by
  rw [BitVec.append_assoc (x₁ := e), ← BitVec.cast_append_left (by omega), BitVec.setWidth_cast]

/-- The field of a packed value is the value: packing puts 0 above it (R75). -/
theorem field_of_packed {n : Nat} (hn : n ≤ 64) (x : BitVec n) : (x.setWidth 64).extractLsb' 0 n = x := by
  rw [BitVec.extractLsb'_setWidth_of_le (by omega), extractLsb'_whole]

/-- A value in a wider operand, above another operand, is the two values put together with 0 above them. -/
theorem ofNat_toNat_append {m n k : Nat} (x : BitVec m) (y : BitVec n) :
    BitVec.ofNat k x.toNat ++ y = (x ++ y).setWidth (k + n) := by
  rw [BitVec.setWidth_append_of_eq rfl, BitVec.setWidth_eq, BitVec.ofNat_toNat]

/-- The data of SEND with OPA 0 and OPB `(x << 16) | y` (R143, R144). -/
theorem zero_append_ofNat_packed {m : Nat} (hm : m ≤ 16) (x : BitVec m) (y : BitVec 16) :
    (0 : BitVec 32) ++ BitVec.ofNat 32 (x.toNat <<< 16 ||| y.toNat) = (x ++ y).setWidth 64 := by
  rw [← BitVec.toNat_append, BitVec.ofNat_toNat, ← BitVec.setWidth_setWidth (u := m + 16) (v := 32) (w := 64) (by omega)]
  exact (BitVec.setWidth_eq_append (by decide)).symm

/-! ## The accepting edge of a parity frame -/

/-- An accepted frame with parity bits (R116, R120) whose field is made of two operands: the even-parity bit is sent
first. -/
theorem accept_parity_eq {fmt : Format} {m k : Nat} {len : BitVec 6} {x : BitVec m} {y : BitVec k} {e o : Bit}
    (hn : m + k + 2 ≤ 40) (hbits : formatBits fmt = m + k + 2)
    (hframe : ∀ data, buildFrame data fmt = parityFrame (m + k) data len)
    (he : evenParity (x ++ y) = e) (ho : oddParity (x ++ y) = o) (op : BitVec 4) (s : State) :
    s.accept op fmt ((x ++ y).setWidth 64) =
      { s with frame := (e ++ x ++ y ++ o).setWidth 40, len := len, idx := len - 1, cnt := 0, st := .pulse
               d0 := if e = 1 then s.d0 else LOW
               d1 := if e = 1 then LOW else s.d1
               res := .noResult, lastLen := len
               hOp := op, hBits := formatCode fmt, hData := (x ++ y).setWidth 64, hPv := 1, hEven := e, hOdd := o } := by
  subst he ho
  have hd := field_of_packed (by omega) (x ++ y)
  have hfirst := parityFrame_first hn ((x ++ y).setWidth 64) len
  rw [extractLsb'_one, hd] at hfirst
  rw [accept_eq, hframe, hbits, ← ite_ofBool_one, ← ite_ofBool_one, Nat.add_succ_sub_one, hfirst, parityFrame, hd,
    setWidth_append_middle]

/-! ## The three commands -/

section
variable (h : Header) (s : State)

theorem exec_send26 (u : BitVec 24) (fc : BitVec 8) (v cn : BitVec 16) :
    exec (.send26 h u fc v cn) s = .next (s.accept 2 .f26 ((fc ++ cn).setWidth 64)) := rfl

theorem exec_send34 (u fc v cn : BitVec 16) :
    exec (.send34 h u fc v cn) s = .next (s.accept 3 .f34 ((fc ++ cn).setWidth 64)) := rfl

theorem exec_sendEm4100 (u : BitVec 24) (version : BitVec 8) (cardId : BitVec 32) :
    exec (.sendEm4100 h u version cardId) s = .next (s.accept 4 .f40 ((version ++ cardId).setWidth 64)) := rfl

end

/-- Settles O28: the upper half of the field is `fc` and the high 4 bits of `cn`. -/
theorem send26Accepted : Obligations.Send26Accepted := by
  intro h u fc v cn s e o
  have he : evenParity (fc ++ cn) = e := congrArg xorReduce (extractLsb'_append_across fc cn (lo := 12) (k := 4) rfl)
  have ho : oddParity (fc ++ cn) = o :=
    congrArg (fun x => ~~~ xorReduce x) (extractLsb'_append_low fc cn 0 12 (by decide))
  rw [exec_send26, accept_parity_eq (by decide) rfl (fun _ => rfl) he ho]
  rfl

/-- Settles O29: the halves of the field are `fc` and `cn`. -/
theorem send34Accepted : Obligations.Send34Accepted := by
  intro h u fc v cn s e o
  obtain ⟨hup, hlo⟩ := parts_of_operand16 fc cn
  have he : evenParity (fc ++ cn) = e := congrArg xorReduce hup
  have ho : oddParity (fc ++ cn) = o := congrArg (fun x => ~~~ xorReduce x) hlo
  rw [exec_send34, accept_parity_eq (by decide) rfl (fun _ => rfl) he ho]
  rfl

/-- Settles O30: format 40 sends all 40 bits of the field, `version[7]` first. -/
theorem sendEm4100Accepted : Obligations.SendEm4100Accepted := by
  intro h u version cardId s
  have hframe : buildFrame ((version ++ cardId).setWidth 64) .f40 =
      { frame := version ++ cardId, len := 40, pv := 0, even := 0, odd := 0 } := by
    rw [plainFrameLayout, field_of_packed (by decide) (version ++ cardId)]
  have hfirst : (version ++ cardId).getLsbD 39 = version.getLsbD 7 := BitVec.getLsbD_append
  rw [exec_sendEm4100, accept_eq, hframe, formatBits, hfirst]
  dsimp only
  rfl

/-- The OP of an accepted command is kept in `h_op` and nowhere else (R120). -/
theorem accept_with_hOp (op op' : BitVec 4) (fmt : Format) (data : Credential) (s : State) :
    { s.accept op fmt data with hOp := op' } = s.accept op' fmt data := rfl

/-- Settles O33: SEND packs the same data, and an acceptance writes the OP to `h_op` alone. -/
theorem convenienceEqualsSend : Obligations.ConvenienceEqualsSend := by
  intro h g s
  refine ⟨fun u fc v cn hg => ⟨_, exec_send26 .., ?_⟩, fun u fc v cn hg => ⟨_, exec_send34 .., ?_⟩,
    fun u version cardId hg => ⟨_, exec_sendEm4100 .., ?_⟩⟩
  · rw [exec_send_of_format (fmt := .f26) hg, zero_append_ofNat_packed (by decide), accept_with_hOp]
  · rw [exec_send_of_format (fmt := .f34) hg, zero_append_ofNat_packed (by decide), accept_with_hOp]
  · rw [exec_send_of_format (fmt := .f40) hg, ofNat_toNat_append, accept_with_hOp]

end Sys2Proof.Machine
end

