-- ==== Sys2Proof/Proofs/TraceOp.lean ====
section
/-! PROOFS. What the OP of the command in flight reaches (10_state.md R36, 42_convenience.md R143): an edge takes states that
differ in it to states that differ in it and in the OP field of the trace record. -/

namespace Sys2Proof.Machine

/-- The low part of a concatenation depends on the low part of its high operand alone. -/
theorem extractLsb'_append_congr {m n k : Nat} {x x' : BitVec m} (y : BitVec n)
    (h : x.extractLsb' 0 k = x'.extractLsb' 0 k) :
    (x ++ y).extractLsb' 0 (k + n) = (x' ++ y).extractLsb' 0 (k + n) := by
  have hsplit (z : BitVec m) : (z ++ y).extractLsb' 0 (k + n) = z.extractLsb' 0 k ++ y := by
    rw [← append_of_parts _ 0 n (Nat.zero_add n).symm, BitVec.extractLsb'_append_eq_right,
      extractLsb'_append_high _ _ _ _ le_rfl, Nat.sub_self]
  rw [hsplit, hsplit, h]

/-- R35: a record depends on the OP in its OP field alone. -/
theorem traceRecord_eq_but_op (kind : ResultCode) (op op' : BitVec 4) (bits : BitVec 8) (pv even odd : Bit)
    (len : BitVec 6) (frame : FrameBits) (data : Credential) :
    (traceRecord kind op bits pv even odd len frame data).extractLsb' 126 2 =
      (traceRecord kind op' bits pv even odd len frame data).extractLsb' 126 2 ∧
    (traceRecord kind op bits pv even odd len frame data).extractLsb' 0 122 =
      (traceRecord kind op' bits pv even odd len frame data).extractLsb' 0 122 := by
  obtain ⟨hkind, -⟩ := traceRecordFields kind op bits pv even odd len frame data
  obtain ⟨hkind', -⟩ := traceRecordFields kind op' bits pv even odd len frame data
  refine ⟨hkind.trans hkind'.symm, ?_⟩
  unfold traceRecord
  -- the eight fields below OP, from DATA up to BITS
  iterate 8 refine extractLsb'_append_congr _ ?_
  exact Subsingleton.elim _ _

/-- States that agree but for `h_op` and the trace record are one state with other values there. -/
theorem exists_eq_of_sameButOp {s t : State} (h : s.sameButOp t) : ∃ op r, t = { s with hOp := op, trc := r } :=
  ⟨t.hOp, t.trc, congrArg (fun u : State => { u with hOp := t.hOp, trc := t.trc }) h.1.symm⟩

section
variable (s : State) (op : BitVec 4)

theorem sameButOp_refl : s.sameButOp s := ⟨rfl, rfl, rfl⟩

theorem sameButOp_with_hOp : s.sameButOp { s with hOp := op } := ⟨rfl, rfl, rfl⟩

/-- Only a completion reads `h_op`, for the record (R93, R169). -/
theorem sameButOp_complete : s.complete.sameButOp { s with hOp := op }.complete := by
  refine ⟨by simp, ?_⟩
  simp only [complete_trc]
  split
  · exact traceRecord_eq_but_op ..
  · exact ⟨rfl, rfl⟩

/-- An acceptance overwrites `h_op`, a rejection does not read it (R120, R121). -/
theorem sameButOp_perform (w : CmdWord) : (s.perform w).sameButOp (State.perform w { s with hOp := op }) := by
  cases hv : classify w with
  | accept cmd fmt data =>
    rw [perform_of_accept hv, perform_of_accept hv]
    exact sameButOp_refl _
  | reject code =>
    rw [perform_of_reject hv, perform_of_reject hv]
    exact sameButOp_with_hOp _ op

theorem sameButOp_pulseArm : (pulseArm s).sameButOp (pulseArm { s with hOp := op }) := by
  unfold pulseArm
  split <;> exact sameButOp_with_hOp _ op

theorem sameButOp_gapArm : (gapArm s).sameButOp (gapArm { s with hOp := op }) := by
  unfold gapArm
  split
  · exact sameButOp_with_hOp _ op
  · split
    · exact sameButOp_with_hOp _ op
    · exact sameButOp_complete s op

/-- An edge takes states that differ in `h_op` and the trace record to such states: it clears the record first (R37). -/
theorem clockEdge_sameButOp (inp : Inputs) (r : TraceWord) :
    ∃ s' t', clockEdge inp s = .next s' ∧ clockEdge inp { s with hOp := op, trc := r } = .next t' ∧
      s'.sameButOp t' := by
  rcases clockEdge_cases inp s with
    ⟨hr, e⟩ | ⟨hr, hs, hn, e⟩ | ⟨hr, hs, ⟨hv, hseen⟩, e⟩ | ⟨hr, hs, e⟩ | ⟨hr, hs, e⟩ | ⟨hr, hs, e⟩
  · exact ⟨_, _, e, clockEdge_reset hr, sameButOp_refl _⟩
  · exact ⟨_, _, e, clockEdge_wait hr hs hn, sameButOp_with_hOp _ op⟩
  · have htake := clockEdge_take (s := { s with hOp := op, trc := r }) hr hs hv hseen
    exact ⟨_, _, e.trans (exec_decodeWord ..), htake.trans (exec_decodeWord ..), sameButOp_perform s.edgeDefaults op _⟩
  · exact ⟨_, _, e, clockEdge_pulse hr hs, sameButOp_pulseArm s.edgeDefaults op⟩
  · exact ⟨_, _, e, clockEdge_gap hr hs, sameButOp_gapArm s.edgeDefaults op⟩
  · exact ⟨_, _, e, clockEdge_code3 hr hs, sameButOp_with_hOp _ op⟩

end

/-- Settles O58: the edge keeps the states equal but for `h_op` and the record, and neither the lines nor the status word
read these. -/
theorem opReachesOnlyTheTrace : Obligations.OpReachesOnlyTheTrace := by
  intro s t hw h
  obtain ⟨op, r, rfl⟩ := exists_eq_of_sameButOp h
  obtain ⟨s', t', hs', ht', hsame⟩ := clockEdge_sameButOp s.advance op s.sample r
  obtain ⟨op', r', rfl⟩ := exists_eq_of_sameButOp hsame
  exact ⟨_, _, (step_eq hw).trans hs', (step_eq (s := { s with hOp := op, trc := r }) hw).trans ht', hsame,
    rfl, rfl, rfl, rfl⟩

end Sys2Proof.Machine
end

