-- ==== Sys2Proof/Proofs/Rejections.lean ====
section
/-! PROOFS. The commands that raise an error (60_exceptions.md R160 to R162): SEND with another BITS, and the reserved
OPs. -/

namespace Sys2Proof.Machine

/-- Everything `State.raise` does (R121, R160). -/
theorem raise_eq (code : RejectCode) (op : BitVec 4) (bits : BitVec 8) (data : Credential) (s : State) :
    s.raise code op bits data =
      { s with res := rejectResult code, lastLen := 0, done := 1
               trcV := if s.dbg = 1 then 1 else s.trcV
               trc := if s.dbg = 1 then traceRecord (rejectResult code) op bits 0 0 0 0 0 data else s.trc } := rfl

/-- SEND with a BITS that is no format raises ERR_FORMAT (R161). -/
theorem exec_send_of_no_format {h : Header} (hb : Format.ofBits h.bits = none) (opa opb : BitVec 32) (s : State) :
    exec (.send h opa opb) s = .next (s.raise .errFormat 1 h.bits (opa ++ opb)) := by
  simp only [exec, execSend, hb]
  rfl

/-- Settles O27: SEND raises ERR_FORMAT, as its BITS is no format. -/
theorem sendRejected : Obligations.SendRejected := by
  intro h opa opb s h26 h34 h40
  have hb : Format.ofBits h.bits = none := by
    rw [← Option.not_isSome_iff_eq_none, ofBits_isSome_iff]
    simp only [h26, h34, h40, or_self, not_false_eq_true]
  rw [exec_send_of_no_format hb, raise_eq]
  rfl

section
variable (h : Header) (opa opb : BitVec 32) (s : State)

theorem exec_reserved0 : exec (.reserved0 h opa opb) s = .next (s.raise .errOp 0 h.bits (opa ++ opb)) := rfl

theorem exec_reserved5 : exec (.reserved5 h opa opb) s = .next (s.raise .errOp 5 h.bits (opa ++ opb)) := rfl

theorem exec_reserved6to7 (low : BitVec 1) :
    exec (.reserved6to7 low h opa opb) s =
      .next (s.raise .errOp (BitVec.ofNat 4 (6 + low.toNat)) h.bits (opa ++ opb)) := by
  have hop : ∀ x : BitVec 1, 0b011#3 ++ x = BitVec.ofNat 4 (6 + x.toNat) := by decide
  rw [← hop]
  rfl

theorem exec_reserved8toF (low : BitVec 3) :
    exec (.reserved8toF low h opa opb) s =
      .next (s.raise .errOp (BitVec.ofNat 4 (8 + low.toNat)) h.bits (opa ++ opb)) := by
  have hop : ∀ x : BitVec 3, 0b1#1 ++ x = BitVec.ofNat 4 (8 + x.toNat) := by decide
  rw [← hop]
  rfl

end

/-- Settles O31: each reserved row raises ERR_OP with the OP of the word. -/
theorem reservedRejected : Obligations.ReservedRejected := by
  intro h opa opb low1 low3 s rejected
  exact ⟨exec_reserved0 h opa opb s, exec_reserved5 h opa opb s, exec_reserved6to7 h opa opb s low1,
    exec_reserved8toF h opa opb s low3⟩

end Sys2Proof.Machine
end

