-- ==== Sys2Proof/Proofs/Trace.lean ====
section
/-! PROOFS. The trace output (60_exceptions.md R169, R170): it shows a record exactly after a finishing edge with
`dbg = 1`, and the diagnostic flag reaches nothing but it. -/

namespace Sys2Proof.Machine

/-! ## When a record appears -/

/-- R169: a step with `dbg = 1` puts out a record with `done`, and every other step puts out 0. -/
theorem trace_of_transition {s t : State} (htr : Transition s t) :
    (t.trcV = 1 ↔ s.dbg = 1 ∧ t.done = 1) ∧ (t.trcV = 0 → t.trc = 0) := by
  cases htr with
  | reject | complete => rcases bit_cases s.dbg with hd | hd <;> simp [hd]
  | _ => simp

/-- Settles O48: the record comes with `done`, which comes exactly after a completion or a rejection. -/
theorem traceExactlyAfterFinish : Obligations.TraceExactlyAfterFinish := by
  intro s hw
  obtain ⟨t, hst, htr⟩ := step_transition hw
  obtain ⟨hvalid, hquiet⟩ := trace_of_transition htr
  rw [done_iff_of_transition hw hst] at hvalid
  exact ⟨t, hst, hvalid, hquiet⟩

/-! ## What the diagnostic flag reaches -/

/-- States that agree but for the flag and the trace output are one state with other values there. -/
theorem exists_eq_of_sameButTrace {s t : State} (h : s.sameButTrace t) :
    ∃ d v r, t = { s with dbg := d, trcV := v, trc := r } :=
  ⟨t.dbg, t.trcV, t.trc, congrArg (fun u : State => { u with dbg := t.dbg, trcV := t.trcV, trc := t.trc }) h.symm⟩

/-- R28: `dbg` stands above `status[8:0]`. -/
theorem statusWord_low_eq_of_sameButTrace {s t : State} (h : s.sameButTrace t) :
    (statusWord s).extractLsb' 0 9 = (statusWord t).extractLsb' 0 9 := by
  obtain ⟨d, v, r, rfl⟩ := exists_eq_of_sameButTrace h
  unfold statusWord
  -- the three fields below DBG: BUSY, RESULT and LAST_LEN
  iterate 3 refine extractLsb'_append_congr _ ?_
  exact Subsingleton.elim _ _

section
variable (s : State) (d : Bit)

theorem sameButTrace_refl : s.sameButTrace s := rfl

theorem sameButTrace_with_dbg : s.sameButTrace { s with dbg := d } := rfl

/-- An acceptance does not read the flag, a rejection reads it for the record alone (R120, R121). -/
theorem sameButTrace_perform (w : CmdWord) : (s.perform w).sameButTrace (State.perform w { s with dbg := d }) := by
  cases hv : classify w with
  | accept op fmt data =>
    rw [perform_of_accept hv, perform_of_accept hv]
    exact sameButTrace_with_dbg _ d
  | reject code =>
    rw [perform_of_reject hv, perform_of_reject hv]
    rfl

theorem sameButTrace_pulseArm : (pulseArm s).sameButTrace (pulseArm { s with dbg := d }) := by
  unfold pulseArm
  split <;> exact sameButTrace_with_dbg _ d

/-- Of the GAP arm only a completion reads the flag, for the record (R93, R169). -/
theorem sameButTrace_gapArm : (gapArm s).sameButTrace (gapArm { s with dbg := d }) := by
  unfold gapArm
  split
  · exact sameButTrace_with_dbg _ d
  · split
    · exact sameButTrace_with_dbg _ d
    · rfl

/-- An edge takes states that differ in the flag and the trace output to such states: its arm reads neither, and it
clears the trace output first (R37). -/
theorem clockEdge_sameButTrace (inp : Inputs) (v : Bit) (r : TraceWord) :
    ∃ s' t', clockEdge inp s = .next s' ∧ clockEdge inp { s with dbg := d, trcV := v, trc := r } = .next t' ∧
      s'.sameButTrace t' := by
  rcases clockEdge_cases inp s with
    ⟨hr, e⟩ | ⟨hr, hs, hn, e⟩ | ⟨hr, hs, ⟨hv, hseen⟩, e⟩ | ⟨hr, hs, e⟩ | ⟨hr, hs, e⟩ | ⟨hr, hs, e⟩
  · exact ⟨_, _, e, clockEdge_reset hr, sameButTrace_refl _⟩
  · exact ⟨_, _, e, clockEdge_wait hr hs hn, sameButTrace_with_dbg _ d⟩
  · have htake := clockEdge_take (s := { s with dbg := d, trcV := v, trc := r }) hr hs hv hseen
    exact ⟨_, _, e.trans (exec_decodeWord ..), htake.trans (exec_decodeWord ..),
      sameButTrace_perform s.edgeDefaults d _⟩
  · exact ⟨_, _, e, clockEdge_pulse hr hs, sameButTrace_pulseArm s.edgeDefaults d⟩
  · exact ⟨_, _, e, clockEdge_gap hr hs, sameButTrace_gapArm s.edgeDefaults d⟩
  · exact ⟨_, _, e, clockEdge_code3 hr hs, sameButTrace_with_dbg _ d⟩

end

/-- Settles O57: the host sees neither the flag nor the trace output, so both steps are edges under the same inputs, and
these keep the states equal but for the flag and the trace output. -/
theorem diagnosticsNeverReachTheOutputs : Obligations.DiagnosticsNeverReachTheOutputs := by
  intro s t hw h
  obtain ⟨d, v, r, rfl⟩ := exists_eq_of_sameButTrace h
  obtain ⟨s', t', hs', ht', hsame⟩ := clockEdge_sameButTrace s.advance d s.sample v r
  have hlow := statusWord_low_eq_of_sameButTrace hsame
  obtain ⟨d', v', r', rfl⟩ := exists_eq_of_sameButTrace hsame
  exact ⟨_, _, (step_eq hw).trans hs', (step_eq (s := { s with dbg := d, trcV := v, trc := r }) hw).trans ht', hsame,
    rfl, rfl, hlow, rfl⟩

end Sys2Proof.Machine
end

