-- ==== Sys2Proof/Proofs/Reset.lean ====
section
/-! PROOFS. The reset edge (10_state.md R180): `cmd_ready` while `rst = 1`, and the state the edge leaves. -/

namespace Sys2Proof.Machine

/-- R30: `cmd_ready` is 0 while `rst = 1`. -/
theorem cmdReady_eq_zero_of_rst {s : State} (hr : s.sample.rst = 1) : s.cmdReady = 0 := by
  refine bit_ne_one.mp fun h1 => ?_
  obtain ⟨-, h0⟩ := (cmdReady_eq_one_iff s).mp h1
  exact absurd (h0.symm.trans hr) (by decide)

/-- Settles O1: the step is the reset edge, which writes every register and reads only the configuration, the host and
the edge counter. -/
theorem resetEdgeWritesResetValues : Obligations.ResetEdgeWritesResetValues :=
  fun _ hw hr => ⟨cmdReady_eq_zero_of_rst hr, step_reset hw hr⟩

end Sys2Proof.Machine
end
